-- ==== Sys2Proof/Word.lean ====
section
/-! DEFINITION. The byte of the decoder. Every other quantity is a count or a duration compared over
the integers (00_scope.md R9) and is held as a `Nat`; see notes/assumptions/3.md. -/

namespace Sys2Proof

/-- An 8-bit value: a completed byte, the shift register, the checksum accumulator (R17, R20, R21). -/
abbrev Byte := BitVec 8

end Sys2Proof
end

