-- ==== Sys2Proof/Config.lean ====
section
/-! DEFINITION. The structural parameters (00_scope.md R7), the configuration record (10_state.md R27),
their defaults, and the one kind of free value the spec leaves: an output pin outside its strobe. -/

namespace Sys2Proof

/-- Structural parameters of one built decoder (R7). `NB_W` is not free: see `Params.nbW`. -/
structure Params where
  /-- `DUR_W`: bits of a duration. -/
  durW : Nat
  /-- `PRE_W`: bits of the preamble counter. -/
  preW : Nat
  /-- `BUF_N`: cells of the packet buffer. -/
  bufN : Nat
  deriving DecidableEq, Repr

/-- The defaults of R7: `DUR_W = 16`, `PRE_W = 8`, `BUF_N = 8`. -/
def Params.default : Params := { durW := 16, preW := 8, bufN := 8 }

/-- `NB_W`: the least width that holds `BUF_N` (R7). -/
def Params.nbW (P : Params) : Nat := Nat.log2 P.bufN + 1

/-- Width of the port word, `3 + 2*DUR_W` (R52). -/
def Params.portW (P : Params) : Nat := 3 + 2 * P.durW

/-- The configuration record (R27 to R35): fixed before the first step, written by no operation.
The fields are naturals, so that `cfg_ok` (R36) has something to refuse; a record it accepts fits the
widths R28 to R34 give. -/
structure Cfg where
  /-- Nominal high half-period of a zero cell, microseconds (R28). -/
  zeroHigh : Nat
  /-- Nominal low half-period of a zero cell (R29). -/
  zeroLow : Nat
  /-- Nominal high half-period of a one cell (R30). -/
  oneHigh : Nat
  /-- Nominal low half-period of a one cell (R31). -/
  oneLow : Nat
  /-- The one tolerance margin (R32). -/
  margin : Nat
  /-- Least number of ones before a start bit (R33). -/
  minPreambleBits : Nat
  /-- Ceiling on the bytes of a packet (R34). -/
  maxBytes : Nat
  /-- The host's idle window; read by no rule of the core (R35). -/
  idleWindow : Nat
  deriving DecidableEq, Repr

/-- The suggested default configuration, `CFG0` of 95_test_vectors.md (R8).
DESIGN CHOICE (notes/assumptions/2.md): the four nominal durations are the spec's suggestion, and
`idleWindow = 0` is ours, since R35 gives none and nothing reads it. -/
def Cfg.default : Cfg where
  zeroHigh := 100
  zeroLow := 100
  oneHigh := 58
  oneLow := 58
  margin := 5
  minPreambleBits := 10
  maxBytes := 8
  idleWindow := 0

/-- Least number of bytes of a packet that may complete, `MIN_BYTES` (R7); not a parameter. -/
def Config.minBytes : Nat := 3

/-- The output pins that carry a meaning only in their strobe step (R56). -/
inductive StrobedPin
  | pktResult | pktPre | pktN | pktByte (i : Nat) | errCode | errInframe
  deriving DecidableEq, Repr

/-- FREE VALUE (R56; 93_implementation_defined.md U3; notes/assumptions/9.md): what a pin of `w` bits
carries in step number `step` when its strobe is 0. -/
opaque Config.undrivenPin (pin : StrobedPin) (step w : Nat) : BitVec w

end Sys2Proof
end

