-- ==== Sys2Proof/Syntax.lean ====
section
/-! DEFINITION. The operations, one constructor per row of spec/opcode_table.json in its order
(30_encoding.md R62), and the words that present them. -/

namespace Sys2Proof

/-- The eight operations: four of the port, four codes of the internal bit interface. -/
inductive Instr
  /-- `RST`: reset (R103). -/
  | rst
  /-- `IDLE`: the idle window has expired (R102). -/
  | idle
  /-- `SYM dH, dL`: one timed symbol, durations in microseconds (R73, R61). -/
  | sym (dH dL : Nat)
  /-- `NOP`: no input this step (R101). -/
  | nop
  /-- `B0`: the bit `Zero` (R76). -/
  | b0
  /-- `B1`: the bit `One` (R77). -/
  | b1
  /-- `BX`: the bit `Invalid` (R78). -/
  | bx
  /-- `BX.rsv`: the reserved code `0b11`, which behaves as `BX` (R55). -/
  | bxRsv
  deriving DecidableEq, Repr

/-- The source's `Bit`: the result of classification (R54). -/
inductive Bit
  | zero | one | invalid
  deriving DecidableEq, Repr

/-- What the environment presents in one step: a port word (format `PORT`, R52), or a code on the
internal interface that a test bench may drive (format `BIT`, R54; notes/assumptions/7.md). -/
inductive InWord
  | port (w : Nat)
  | bit (c : Nat)
  deriving DecidableEq, Repr

end Sys2Proof
end

