-- ==== Sys2Proof/WellFormed.lean ====
section
/-! DEFINITION. What can be presented at all: operands that fit `DUR_W` bits (30_encoding.md R61) and
words that fit their interface (R52, R54). -/

namespace Sys2Proof

/-- The operands of `SYM` are unsigned values of `DUR_W` bits (R61); no other operation has any. -/
def Instr.wellFormed (P : Params) : Instr → Bool
  | .sym dH dL => decide (dH < 2 ^ P.durW) && decide (dL < 2 ^ P.durW)
  | .rst => true
  | .idle => true
  | .nop => true
  | .b0 => true
  | .b1 => true
  | .bx => true
  | .bxRsv => true

/-- A port word has `3 + 2*DUR_W` bits (R52), a bit code two (R54). -/
def InWord.wellFormed (P : Params) : InWord → Bool
  | .port w => decide (w < 2 ^ P.portW)
  | .bit c => decide (c < 4)

end Sys2Proof
end

