-- ==== Sys2Proof/Decode.lean ====
section
/-! DEFINITION. The decoder of port words and bit codes (30_encoding.md R52 to R55), total and
rejecting by name what no interface can carry, and the encoder that gives the canonical words. -/

namespace Sys2Proof

/-- Why a word is no word of its interface. Raised by `decode` only; safe: such a word cannot stand on
the pins (notes/assumptions/10.md). No port word and no bit code is illegal (R63). -/
inductive DecodeError
  /-- More than `3 + 2*DUR_W` bits (R52). -/
  | portWordTooWide
  /-- More than 2 bits (R54). -/
  | bitCodeTooWide
  deriving DecidableEq, Repr

/-- The slice of `len` bits of `w` that begins at bit `lo` (R9). -/
def bitField (w lo len : Nat) : Nat := w / 2 ^ lo % 2 ^ len

/-- `dL = word[DUR_W-1:0]` (R52). -/
def portDL (P : Params) (w : Nat) : Nat := bitField w 0 P.durW
/-- `dH = word[2*DUR_W-1:DUR_W]` (R52). -/
def portDH (P : Params) (w : Nat) : Nat := bitField w P.durW P.durW
/-- `sym_valid = word[2*DUR_W]` (R52). -/
def portSymValid (P : Params) (w : Nat) : Bool := bitField w (2 * P.durW) 1 == 1
/-- `idle = word[2*DUR_W+1]` (R52). -/
def portIdle (P : Params) (w : Nat) : Bool := bitField w (2 * P.durW + 1) 1 == 1
/-- `rst = word[2*DUR_W+2]` (R52). -/
def portRst (P : Params) (w : Nat) : Bool := bitField w (2 * P.durW + 2) 1 == 1

/-- The priority decode of R53: `rst` over `idle` over `sym_valid`; fields below the deciding one are
ignored. -/
def decodePort (P : Params) (w : Nat) : Instr :=
  if portRst P w then .rst
  else if portIdle P w then .idle
  else if portSymValid P w then .sym (portDH P w) (portDL P w)
  else .nop

/-- The bit codes of R54; code 3 is the reserved one (R55). -/
def decodeBit : Nat → Except DecodeError Instr
  | 0 => .ok .b0
  | 1 => .ok .b1
  | 2 => .ok .bx
  | 3 => .ok .bxRsv
  | _ + 4 => .error .bitCodeTooWide

/-- The classifier's value on the internal interface, as its 2-bit code (R54). -/
def Bit.code : Bit → BitVec 2
  | .zero => 0b00
  | .one => 0b01
  | .invalid => 0b10

/-- What the synchronizer takes a code for: the reserved `0b11` is `Invalid` (R55). -/
def Bit.ofCode (c : BitVec 2) : Bit :=
  if c = 0b00 then .zero else if c = 0b01 then .one else .invalid

/-- The bit-level operation named after a bit (R54). -/
def Bit.op : Bit → Instr
  | .zero => .b0
  | .one => .b1
  | .invalid => .bx

/-- The decoder: total on every word. -/
def decode (P : Params) : InWord → Except DecodeError Instr
  | .port w => if w < 2 ^ P.portW then .ok (decodePort P w) else .error .portWordTooWide
  | .bit c => decodeBit c

/-- Canonical words: every ignored bit 0 (R53, R54). -/
def encode (P : Params) : Instr → InWord
  | .rst => .port (2 ^ (2 * P.durW + 2))
  | .idle => .port (2 ^ (2 * P.durW + 1))
  | .sym dH dL => .port (2 ^ (2 * P.durW) + dH * 2 ^ P.durW + dL)
  | .nop => .port 0
  | .b0 => .bit 0
  | .b1 => .bit 1
  | .bx => .bit 2
  | .bxRsv => .bit 3

/-- The word of an opcode-table row, whose bits are `w`: a row of at most one byte is of format `BIT`
(2 bits), a wider one of format `PORT` (35 bits). The formats' own words (`InWord`) are what the decoder
reads; the input has no byte layout (R39). -/
def tableWord (nbits w : Nat) : InWord :=
  if nbits ≤ 8 then .bit w else .port w

/-- The operation the decoder reads from a table row's word, for the table's `DUR_W = 16`. -/
def decodeTableWord (nbits w : Nat) : Option Instr :=
  match decode Params.default (tableWord nbits w) with
  | .ok i => some i
  | .error _ => none

end Sys2Proof
end

