-- ==== Sys2Proof/Machine/State.lean ====
section
/-! DEFINITION. The state of one decoder: the eight items of 10_state.md R13 (`Regs`), the constant
parameters and configuration, the input and output streams of 20_memory.md R39, and the outcomes of a
step (00_scope.md R11). -/

namespace Sys2Proof.Machine

/-- The position register's three legal values (R14). -/
inductive Pos
  | seek | data | stop
  deriving DecidableEq, Repr

/-- The abort causes (60_exceptions.md R105). -/
inductive Cause
  /-- A symbol in no band (R106). -/
  | invalidSymbol
  /-- A `One` separator after the first or second byte (R107). -/
  | framingViolation
  /-- A `Zero` separator after byte number `maxBytes` (R108). -/
  | byteCeilingExceeded
  deriving DecidableEq, Repr

/-- The source's `ValidationResult` (R109). -/
inductive ValidationResult
  | valid | checksumMismatch
  deriving DecidableEq, Repr

/-- An emitted packet (R11): preamble length, number of bytes, the bytes in arrival order. -/
structure Packet where
  pre : Nat
  n : Nat
  bytes : List Byte
  deriving DecidableEq, Repr

/-- The outcome of a step (R11); every step yields exactly one. -/
inductive StepOutcome
  | none
  | abort (cause : Cause) (inFrame : Bool)
  | emit (packet : Packet) (result : ValidationResult)
  deriving DecidableEq, Repr

/-- The packet buffer's cells: a list of (index, byte), indices rising, no byte 0; a cell that is not
listed reads 0, its reset value (R21, R25; notes/assumptions/8.md). -/
abbrev Memory := List Host.Cell

/-- The eight items of R13. -/
structure Regs where
  /-- Position (R14). -/
  st : Pos
  /-- Preamble counter, `PRE_W` bits (R15). -/
  pcount : Nat
  /-- Preamble length of the packet in progress, `PRE_W` bits (R16). -/
  pktPre : Nat
  /-- Byte-assembly shift register (R17). -/
  sreg : Byte
  /-- Bits held in `sreg` (R18). -/
  bitcnt : BitVec 3
  /-- Completed bytes of the frame, `NB_W` bits (R19). -/
  nbytes : Nat
  /-- Exclusive or of the completed bytes (R20). -/
  xacc : Byte
  /-- The packet byte buffer (R21). -/
  buf : Memory
  deriving DecidableEq, Repr

/-- `RESET_STATE` (R25, R122). -/
def Regs.reset : Regs where
  st := .seek
  pcount := 0
  pktPre := 0
  sreg := 0#8
  bitcnt := 0#3
  nbytes := 0
  xacc := 0#8
  buf := []

/-- Why the machine stops with a fault. No event of the hardware does (R110). -/
inductive Fault
  /-- A buffer access at index `i ≥ BUF_N`, which does not exist (R40). Raised by `storeByte` and
  `readBytes`, from states outside the invariant only; safe (notes/assumptions/8.md). -/
  | bufIndexOutOfRange (i : Nat)
  deriving DecidableEq, Repr

/-- Why the model gives a step no meaning. -/
inductive Refusal
  /-- An operation whose meaning is not written. No arm answers this. -/
  | notModelled (mnemonic : String)
  /-- `cfg_ok` is false: no decoder is built from such a record (R36, U2). Raised by every operation;
  safe. -/
  | invalidConfig
  /-- No `RST` has been taken since power-on (R121, U1). Raised by every operation but `RST`; safe. -/
  | notReset
  /-- The host presents no further word: the run has ended (R129). Raised by `step`; safe
  (notes/assumptions/5.md). -/
  | noPortWord
  /-- The word is too wide for its interface (notes/assumptions/10.md). Raised by `step`; safe. -/
  | undecodable (e : DecodeError)
  deriving DecidableEq, Repr

/-- The machine. `par` and `cfg` are constants of it (notes/assumptions/1.md). -/
structure State where
  /-- Structural parameters (R7). -/
  par : Params
  /-- Configuration record (R27). -/
  cfg : Cfg
  /-- Whether an `RST` has been taken since power-on: the model's own field (R121;
  notes/assumptions/4.md). -/
  resetDone : Bool
  /-- The eight registers (R13). -/
  regs : Regs
  /-- The words the host will present, the next one first (R39, R41). -/
  input : List InWord
  /-- The outcomes of the steps taken, the oldest first (R39, R42). -/
  output : List StepOutcome
  deriving DecidableEq, Repr

/-- The machine right after reset, built with the default parameters and configuration
(notes/assumptions/2.md), no word presented and no step taken. -/
def State.reset : State where
  par := Params.default
  cfg := Cfg.default
  resetDone := true
  regs := Regs.reset
  input := []
  output := []

end Sys2Proof.Machine
end

