-- ==== Sys2Proof/Machine/Flags.lean ====
section
/-! DEFINITION. The predicates and views that are computed from the state and stored nowhere
(10_state.md R22 to R24), and `cfg_ok` (R36). -/

namespace Sys2Proof.Machine

/-- `pre_ok`: enough ones for a start bit (R23). -/
def preOk (c : Cfg) (r : Regs) : Bool := decide (c.minPreambleBits ≤ r.pcount)

/-- `csum_ok`: the accumulator is 0 (R23). -/
def csumOk (r : Regs) : Bool := decide (r.xacc = 0#8)

/-- Whether a frame is in progress: `st` is `DATA` or `STOP` (R11, R14). -/
def inFrame (r : Regs) : Bool := decide (r.st ≠ .seek)

/-- The source's `SyncState` (R24). -/
inductive SyncView
  | seekingPreamble (count : Nat)
  | awaitingStartBit
  | inFrame
  deriving DecidableEq, Repr

/-- `SyncStateView` (R24): informative, read by no rule. -/
def syncView (c : Cfg) (r : Regs) : SyncView :=
  match r.st with
  | .seek => if preOk c r then .awaitingStartBit else .seekingPreamble r.pcount
  | .data => .inFrame
  | .stop => .inFrame

/-- The position triple, the program-counter analog (R22). -/
def position (r : Regs) : Pos × BitVec 3 × Nat := (r.st, r.bitcnt, r.nbytes)

/-- Clause (a) of `cfg_ok`: the High bands are disjoint, over the integers (R36, R69). -/
def highBandsOk (c : Cfg) : Bool :=
  decide ((c.oneHigh : Int) + c.margin < (c.zeroHigh : Int) - c.margin)

/-- Clause (b): the counter can reach the minimum, and the minimum is not 0. -/
def preambleOk (P : Params) (c : Cfg) : Bool :=
  decide (1 ≤ c.minPreambleBits) && decide (c.minPreambleBits ≤ 2 ^ P.preW - 1)

/-- Clause (c): a packet can complete and the buffer holds it. -/
def ceilingOk (P : Params) (c : Cfg) : Bool :=
  decide (Config.minBytes ≤ c.maxBytes) && decide (c.maxBytes ≤ P.bufN)

/-- Clause (d): the duration fields are representable. -/
def durationsOk (P : Params) (c : Cfg) : Bool :=
  [c.zeroHigh, c.zeroLow, c.oneHigh, c.oneLow, c.margin].all fun d => decide (d < 2 ^ P.durW)

/-- `cfg_ok(cfg)` (R36). -/
def cfgOk (P : Params) (c : Cfg) : Bool :=
  highBandsOk c && preambleOk P c && ceilingOk P c && durationsOk P c

end Sys2Proof.Machine
end

