-- ==== Sys2Proof/Machine/Operands.lean ====
section
/-! DEFINITION. The arithmetic on operands and registers: the band test (40_classifier.md R68), the
saturating increment and the shift (00_scope.md R9), exclusive or over bytes (10_state.md R20), and the
host's clipping of a duration (30_encoding.md R61). -/

namespace Sys2Proof.Machine

/-- `InBand(d, nom, m)`: `d` lies strictly between `nom - m` and `nom + m`, over the integers
(R68, R69). -/
def inBand (d nom m : Nat) : Bool :=
  decide ((nom : Int) - m < d) && decide ((d : Int) < nom + m)

/-- Both halves lie in the zero bands (R70). -/
def isZero (c : Cfg) (dH dL : Nat) : Bool :=
  inBand dH c.zeroHigh c.margin && inBand dL c.zeroLow c.margin

/-- Both halves lie in the one bands (R70). -/
def isOne (c : Cfg) (dH dL : Nat) : Bool :=
  inBand dH c.oneHigh c.margin && inBand dL c.oneLow c.margin

/-- `Classify(cfg, dH, dL)` (R70), a pure function (R67). -/
def classify (c : Cfg) (dH dL : Nat) : Bit :=
  if isZero c dH dL then .zero
  else if isOne c dH dL then .one
  else .invalid

/-- `sat_inc_N(v)` (R9). -/
def satInc (N v : Nat) : Nat := if v < 2 ^ N - 1 then v + 1 else 2 ^ N - 1

/-- The concatenation of `sreg[6:0]` and `v`: shift left by one, the new bit enters at bit 0 (R87). -/
def shifted (sreg : Byte) (v : Bool) : Byte := sreg.extractLsb' 0 7 ++ BitVec.ofBool v

/-- The exclusive or of a list of bytes, 0 for none (R20). -/
def xorBytes : List Byte → Byte
  | [] => 0#8
  | b :: bs => b ^^^ xorBytes bs

/-- What the host presents for a measured duration: clipped to `2^DUR_W - 1` (R61, R124). -/
def clip (P : Params) (d : Nat) : Nat := min d (2 ^ P.durW - 1)

end Sys2Proof.Machine
end

