-- ==== Sys2Proof/Machine/Ops.lean ====
section
/-! DEFINITION. The named operations over the packet buffer and the state that every meaning shares:
one-byte buffer access (20_memory.md R40), the abort sequence (60_exceptions.md R114), emission
(43_checksum_emitter.md R96), fetching the next word, and the frame of one operation. -/

namespace Sys2Proof.Machine

/-- What a cell holds: the listed byte, else 0 (R21, R25). -/
def Memory.read : Memory → Nat → Byte
  | [], _ => 0#8
  | (a, b) :: m, i => if a = i then b else Memory.read m i

/-- Store a byte in a cell, keeping the canonical form: storing 0 unlists the cell. -/
def Memory.write : Memory → Nat → Byte → Memory
  | [], i, v => if v = 0#8 then [] else [(i, v)]
  | (a, b) :: m, i, v =>
    if a < i then (a, b) :: Memory.write m i v
    else if a = i then (if v = 0#8 then m else (i, v) :: m)
    else (if v = 0#8 then (a, b) :: m else (i, v) :: (a, b) :: m)

/-- The canonical form: indices strictly rising, no listed byte 0. -/
def Memory.wf : Memory → Bool
  | [] => true
  | (a, b) :: m => decide (b ≠ 0#8) && m.all (fun c => decide (a < c.1)) && Memory.wf m

/-- `MemWrite(i, 1, v)`, defined for `0 ≤ i < BUF_N` (R10, R40). -/
def storeByte (P : Params) (m : Memory) (i : Nat) (v : Byte) : Except Fault Memory :=
  if i < P.bufN then .ok (Memory.write m i v) else .error (.bufIndexOutOfRange i)

/-- `[MemRead(0,1), ..., MemRead(n-1,1)]` (R92); the first index that does not exist is `BUF_N`. -/
def readBytes (P : Params) (m : Memory) (n : Nat) : Except Fault (List Byte) :=
  if n ≤ P.bufN then .ok ((List.range n).map (Memory.read m))
  else .error (.bufIndexOutOfRange P.bufN)

/-- The next registers and the outcome of one step. -/
abbrev StepResult := Except Fault (Regs × StepOutcome)

/-- `raise <Cause>()`, the one abort sequence (R114): the outcome records the cause and whether a frame
was in progress before the step, every register and cell takes its reset value, and the bit is consumed.
Nothing is saved and there is no return (R115). -/
def raise (cause : Cause) (r : Regs) : Regs × StepOutcome :=
  (Regs.reset, .abort cause (inFrame r))

/-- `emit(packet, result)`: hand the packet over and discard all packet state (R96). -/
def emit (p : Packet) (res : ValidationResult) : Regs × StepOutcome :=
  (Regs.reset, .emit p res)

/-- The state after an operation whose registers and outcome are given: the outcome joins the output
stream (R39), everything else stays. -/
def State.commit (s : State) (r : Regs) (o : StepOutcome) : State :=
  { s with regs := r, output := s.output ++ [o] }

/-- One operation other than `RST`: refused for an invalid configuration (R36) and before the first
`RST` (R121); else it takes its effect on the registers. -/
def operate (s : State) (f : Regs → StepResult) : Host.Outcome State Fault Refusal :=
  if cfgOk s.par s.cfg then
    if s.resetDone then
      match f s.regs with
      | .ok (r, o) => .next (s.commit r o)
      | .error e => .fault e
    else .refused .notReset
  else .refused .invalidConfig

/-- The `RST` operation's frame: like `operate`, but it works from any register contents and ends the
un-reset condition (R103, R121). -/
def operateReset (s : State) : Host.Outcome State Fault Refusal :=
  if cfgOk s.par s.cfg then
    .next { s.commit Regs.reset .none with resetDone := true }
  else .refused .invalidConfig

/-- Take the next word from the input stream and decode it (R39, R41, R53); each word is read once. -/
def fetch (s : State) : Except Refusal (Instr × State) :=
  match s.input with
  | [] => .error .noPortWord
  | w :: rest =>
    match decode s.par w with
    | .ok i => .ok (i, { s with input := rest })
    | .error e => .error (.undecodable e)

end Sys2Proof.Machine
end

