-- ==== Sys2Proof/Machine/Assembler.lean ====
section
/-! DEFINITION. The Frame Assembler (42_assembler.md): data bits, and the separator bit when it is
`Zero`. -/

namespace Sys2Proof.Machine

/-- Bits 1 to 7 of a byte, the first arm of `ShiftIn(v)` (R87). -/
def shiftBit (v : Bool) (r : Regs) : Regs :=
  { r with sreg := shifted r.sreg v, bitcnt := r.bitcnt + 1 }

/-- The eighth bit, the second arm of `ShiftIn(v)` (R87): the byte goes to `buf[nbytes]`. -/
def completeByte (P : Params) (v : Bool) (r : Regs) : StepResult :=
  match storeByte P r.buf r.nbytes (shifted r.sreg v) with
  | .ok m => .ok ({ r with
      buf := m
      xacc := r.xacc ^^^ shifted r.sreg v
      nbytes := r.nbytes + 1
      sreg := 0#8
      bitcnt := 0#3
      st := .stop }, .none)
  | .error e => .error e

/-- `ShiftIn(v)`: a data bit in `DATA` (R87). -/
def shiftIn (P : Params) (v : Bool) (r : Regs) : StepResult :=
  if r.bitcnt < 7 then .ok (shiftBit v r, .none) else completeByte P v r

/-- `Zero` in `STOP`: below the ceiling another byte follows (R88), at it the frame is aborted (R89).
The test is the dispatch's `nbytes < maxBytes` (R75; notes/assumptions/11.md). -/
def zeroSeparator (c : Cfg) (r : Regs) : Regs × StepOutcome :=
  if r.nbytes < c.maxBytes then ({ r with st := .data }, .none)
  else raise .byteCeilingExceeded r

end Sys2Proof.Machine
end

