-- ==== Sys2Proof/Machine/Emitter.lean ====
section
/-! DEFINITION. The Checksum Validator and Packet Emitter (43_checksum_emitter.md): the separator bit
when it is `One`; and the role of each byte of a packet (20_memory.md R48). -/

namespace Sys2Proof.Machine

/-- The validation result: `Valid` exactly when the accumulator is 0 (R92, R93). -/
def validate (r : Regs) : ValidationResult := if csumOk r then .valid else .checksumMismatch

/-- `Complete` (R92): the packet is built from the state before the step, then all is discarded (R96). -/
def complete (P : Params) (r : Regs) : StepResult :=
  match readBytes P r.buf r.nbytes with
  | .ok bytes => .ok (emit { pre := r.pktPre, n := r.nbytes, bytes := bytes } (validate r))
  | .error e => .error e

/-- `One` in `STOP`: the end bit from the third byte on (R92), a framing violation before (R95). -/
def oneSeparator (P : Params) (r : Regs) : StepResult :=
  if Config.minBytes ≤ r.nbytes then complete P r else .ok (raise .framingViolation r)

/-- What a byte of a packet is (R48). -/
inductive ByteRole
  | address | data | checksum | notInPacket
  deriving DecidableEq, Repr

/-- The role of `buf[i]` in a packet of `n` bytes, known at completion only (R48). -/
def byteRole (n i : Nat) : ByteRole :=
  if n ≤ i then .notInPacket
  else if i = 0 then .address
  else if i = n - 1 then .checksum
  else .data

end Sys2Proof.Machine
end

