-- ==== Sys2Proof/Machine/Synchronizer.lean ====
section
/-! DEFINITION. The Bit-Stream Synchronizer (41_synchronizer.md): the transitions in `SEEK`, the
dispatch `StepBit` of a classified bit, and the bit-level operations. -/

namespace Sys2Proof.Machine

/-- `One` in `SEEK` (R79). -/
def countOne (P : Params) (r : Regs) : Regs := { r with pcount := satInc P.preW r.pcount }

/-- `Zero` in `SEEK`: the start bit after enough ones (R80), else the count is cleared (R81). -/
def zeroInSeek (c : Cfg) (r : Regs) : Regs :=
  if preOk c r then { r with st := .data, pktPre := r.pcount, pcount := 0 }
  else { r with pcount := 0 }

/-- `StepBit(cfg, state, b)` (R75): one classified bit. -/
def stepBit (P : Params) (c : Cfg) (b : Bit) (r : Regs) : StepResult :=
  match b, r.st with
  | .invalid, _ => .ok (raise .invalidSymbol r)
  | .one, .seek => .ok (countOne P r, .none)
  | .zero, .seek => .ok (zeroInSeek c r, .none)
  | .one, .data => shiftIn P true r
  | .zero, .data => shiftIn P false r
  | .one, .stop => oneSeparator P r
  | .zero, .stop => .ok (zeroSeparator c r)

/-- `B0` (R76). -/
def execB0 (s : State) : Host.Outcome State Fault Refusal :=
  operate s (stepBit s.par s.cfg .zero)

/-- `B1` (R77). -/
def execB1 (s : State) : Host.Outcome State Fault Refusal :=
  operate s (stepBit s.par s.cfg .one)

/-- `BX` (R78). -/
def execBx (s : State) : Host.Outcome State Fault Refusal :=
  operate s (stepBit s.par s.cfg .invalid)

/-- `BX.rsv`, the reserved code: treated as `Invalid` (R55). -/
def execBxRsv (s : State) : Host.Outcome State Fault Refusal :=
  operate s (stepBit s.par s.cfg .invalid)

end Sys2Proof.Machine
end

