-- ==== Sys2Proof/Machine/Classifier.lean ====
section
/-! DEFINITION. The operation `SYM` (40_classifier.md R73): classify, then one bit-level step. -/

namespace Sys2Proof.Machine

/-- `SYM dH, dL`: `StepBit(cfg, state, Classify(cfg, dH, dL))` (R73). -/
def execSym (dH dL : Nat) (s : State) : Host.Outcome State Fault Refusal :=
  operate s (stepBit s.par s.cfg (classify s.cfg dH dL))

end Sys2Proof.Machine
end

