-- ==== Sys2Proof/Machine/Port.lean ====
section
/-! DEFINITION. The port-level operations other than `SYM` (44_port_operations.md R101 to R103). -/

namespace Sys2Proof.Machine

/-- `RST` (R103, R122): `RESET_STATE` from any register contents; `cfg` untouched; outcome `None`. -/
def execRst (s : State) : Host.Outcome State Fault Refusal :=
  operateReset s

/-- `IDLE` (R102): `RESET_STATE` from any position, silently. -/
def execIdle (s : State) : Host.Outcome State Fault Refusal :=
  operate s fun _ => .ok (Regs.reset, .none)

/-- `NOP` (R101): nothing changes; outcome `None`. -/
def execNop (s : State) : Host.Outcome State Fault Refusal :=
  operate s fun r => .ok (r, .none)

end Sys2Proof.Machine
end

