-- ==== Sys2Proof/Machine/Dispatch.lean ====
section
/-! DEFINITION. The dispatch of an operation to its meaning (44_port_operations.md R99): one arm per
constructor. -/

namespace Sys2Proof.Machine

def exec (i : Instr) (s : State) : Host.Outcome State Fault Refusal :=
  match i with
  | .rst => Sys2Proof.Machine.execRst s
  | .idle => Sys2Proof.Machine.execIdle s
  | .sym dH dL => Sys2Proof.Machine.execSym dH dL s
  | .nop => Sys2Proof.Machine.execNop s
  | .b0 => Sys2Proof.Machine.execB0 s
  | .b1 => Sys2Proof.Machine.execB1 s
  | .bx => Sys2Proof.Machine.execBx s
  | .bxRsv => Sys2Proof.Machine.execBxRsv s

end Sys2Proof.Machine
end

