-- ==== Sys2Proof/Machine/Step.lean ====
section
/-! DEFINITION. One step of the machine (00_scope.md R6): take the next word, decode it, run it. -/

namespace Sys2Proof.Machine

/-- One step consumes exactly one word of the input stream (R6, R99). -/
def step (s : State) : Host.Outcome State Fault Refusal :=
  match fetch s with
  | .ok (i, s') => exec i s'
  | .error e => .refused e

/-- `s` with a table row's word presented next (notes/assumptions/5.md). -/
def State.withFetchWord (s : State) (nbits w : Nat) : State :=
  { s with input := tableWord nbits w :: s.input }

end Sys2Proof.Machine
end

