-- ==== Sys2Proof/Machine/System.lean ====
section
/-! DEFINITION. Several decoders (60_exceptions.md R118): one per signal line, a product of independent
models. -/

namespace Sys2Proof.Machine

/-- One decoder per signal line, each with its own configuration (R118). -/
abbrev Lines := List State

/-- Step the decoder of line `k`; the others do not take part. A line that is not there does nothing
(notes/assumptions/14.md). -/
def Lines.step (k : Nat) (ls : Lines) : Host.Outcome Lines Fault Refusal :=
  match ls[k]? with
  | some s =>
    match Machine.step s with
    | .next t => .next (ls.set k t)
    | .fault e => .fault e
    | .refused e => .refused e
  | none => .next ls

/-- A run of the system: `ks` names the line of each step in turn, up to the first stop. -/
def Lines.run : List Nat → Lines → Host.Outcome Lines Fault Refusal
  | [], ls => .next ls
  | k :: ks, ls =>
    match Lines.step k ls with
    | .next ls' => Lines.run ks ls'
    | .fault e => .fault e
    | .refused e => .refused e

end Sys2Proof.Machine
end

