-- ==== Sys2Proof/Machine/Pins.lean ====
section
/-! DEFINITION. The output record (30_encoding.md R56): the pins as functions of the outcome of the
step and of the configuration (10_state.md R37), and the numeric codes (60_exceptions.md R105). -/

namespace Sys2Proof.Machine

/-- The position's code (R14). -/
def Pos.code : Pos → BitVec 2
  | .seek => 0b00
  | .data => 0b01
  | .stop => 0b10

/-- `err_code` (R56, R105); 0 is no cause. -/
def Cause.code : Cause → BitVec 2
  | .invalidSymbol => 1
  | .framingViolation => 2
  | .byteCeilingExceeded => 3

/-- `pkt_result` (R56, R105). -/
def ValidationResult.code : ValidationResult → BitVec 1
  | .valid => 0
  | .checksumMismatch => 1

/-- The output pins of one step (R56). -/
structure OutPins (P : Params) where
  pktStrobe : BitVec 1
  pktResult : BitVec 1
  pktPreO : BitVec P.preW
  pktN : BitVec P.nbW
  /-- `pkt_byte[i]`, `0 ≤ i < BUF_N`. -/
  pktByte : List Byte
  errStrobe : BitVec 1
  errCode : BitVec 2
  errInframe : BitVec 1
  cfgOkO : BitVec 1
  deriving DecidableEq, Repr

/-- `packet.bytes[i]` for `i < n`, 0 beyond (R56). -/
def packetByte (p : Packet) (i : Nat) : Byte := if i < p.n then p.bytes.getD i 0 else 0

/-- The packet pins no emission drives in step `k`: free values. -/
def undrivenBytes (P : Params) (k : Nat) : List Byte :=
  (List.range P.bufN).map fun i => Config.undrivenPin (.pktByte i) k 8

/-- The pins during step number `k`, whose outcome is `o` (R56). -/
def outPins (P : Params) (c : Cfg) (k : Nat) : StepOutcome → OutPins P
  | .none => {
      pktStrobe := 0
      pktResult := Config.undrivenPin .pktResult k 1
      pktPreO := Config.undrivenPin .pktPre k P.preW
      pktN := Config.undrivenPin .pktN k P.nbW
      pktByte := undrivenBytes P k
      errStrobe := 0
      errCode := Config.undrivenPin .errCode k 2
      errInframe := Config.undrivenPin .errInframe k 1
      cfgOkO := BitVec.ofBool (cfgOk P c) }
  | .abort cause f => {
      pktStrobe := 0
      pktResult := Config.undrivenPin .pktResult k 1
      pktPreO := Config.undrivenPin .pktPre k P.preW
      pktN := Config.undrivenPin .pktN k P.nbW
      pktByte := undrivenBytes P k
      errStrobe := 1
      errCode := cause.code
      errInframe := BitVec.ofBool f
      cfgOkO := BitVec.ofBool (cfgOk P c) }
  | .emit p res => {
      pktStrobe := 1
      pktResult := res.code
      pktPreO := BitVec.ofNat P.preW p.pre
      pktN := BitVec.ofNat P.nbW p.n
      pktByte := (List.range P.bufN).map (packetByte p)
      errStrobe := 0
      errCode := Config.undrivenPin .errCode k 2
      errInframe := Config.undrivenPin .errInframe k 1
      cfgOkO := BitVec.ofBool (cfgOk P c) }

/-- The pins in the step that led to `s`; none before the first step. -/
def State.lastPins (s : State) : Option (OutPins s.par) :=
  match s.output.getLast? with
  | some o => some (outPins s.par s.cfg (s.output.length - 1) o)
  | none => none

end Sys2Proof.Machine
end

