-- ==== Sys2Proof/Machine/Stimulus.lean ====
section
/-! DEFINITION. Runs (44_port_operations.md R100), and the stimulus notation with its pseudo-operations
and their expansions (30_encoding.md R58, R64 to R66), as abstract syntax. -/

namespace Sys2Proof.Machine

/-- `ONES k` (R66). -/
def ones (k : Nat) : List Instr := List.replicate k .b1

/-- The bit-level operation of a data bit. -/
def bitOp (v : Bool) : Instr := if v then .b1 else .b0

/-- `BYTE v`: bit 7 first (R66, R43). -/
def byteOps (v : Byte) : List Instr :=
  [7, 6, 5, 4, 3, 2, 1, 0].map fun i => bitOp (v.getLsbD i)

/-- The bytes of a frame: one `B0` between consecutive bytes, one `B1` after the last (R58, R59). -/
def frameBytes : List Byte → List Instr
  | [] => []
  | [b] => byteOps b ++ [.b1]
  | b :: b' :: bs => byteOps b ++ .b0 :: frameBytes (b' :: bs)

/-- `FRAME p; b0, ..., b(n-1)`, for at least one byte (R66). -/
def frame (p : Nat) (bs : List Byte) : List Instr := ones p ++ .b0 :: frameBytes bs

/-- `PACKET p; a; d1, ..., dm`: the frame with its checksum byte (R66). -/
def packet (p : Nat) (a : Byte) (ds : List Byte) : List Instr :=
  frame p (a :: ds ++ [xorBytes (a :: ds)])

/-- `S1`: a nominal one cell of the suggested default configuration (R66). -/
def s1 : Instr := .sym 58 58
/-- `S0`: a nominal zero cell of it. -/
def s0 : Instr := .sym 100 100
/-- `SX`: a cell in neither of its bands. -/
def sX : Instr := .sym 80 80

/-- A line of the stimulus notation (R65, R66). -/
inductive Stimulus
  | op (i : Instr)
  | ones (k : Nat)
  | byte (v : Byte)
  | frame (p : Nat) (bs : List Byte)
  | packet (p : Nat) (a : Byte) (ds : List Byte)
  | s1 | s0 | sX
  deriving DecidableEq, Repr

/-- The expansion of a line (R66). -/
def Stimulus.expand : Stimulus → List Instr
  | .op i => [i]
  | .ones k => Machine.ones k
  | .byte v => byteOps v
  | .frame p bs => Machine.frame p bs
  | .packet p a ds => Machine.packet p a ds
  | .s1 => [Machine.s1]
  | .s0 => [Machine.s0]
  | .sX => [Machine.sX]

/-- An item of the source's own bit-sequence notation (R64): `1×n`, a lone bit, or a byte's eight bits
with the value of the bit after it. -/
inductive SourceItem
  | run (n : Nat)
  | bit (v : Bool)
  | byteStop (v : Byte) (stop : Bool)
  deriving DecidableEq, Repr

/-- What a source item stands for (R64, R66). -/
def SourceItem.expand : SourceItem → List Instr
  | .run n => Machine.ones n
  | .bit v => [bitOp v]
  | .byteStop v stop => byteOps v ++ [bitOp stop]

/-- A bit-level operation lifted to a symbol of the suggested default configuration (R66); a port-level
one stays. -/
def lift : Instr → Instr
  | .b0 => s0
  | .b1 => s1
  | .bx => sX
  | .bxRsv => sX
  | .rst => .rst
  | .idle => .idle
  | .sym dH dL => .sym dH dL
  | .nop => .nop

/-- The symbol the host presents for a measured cell, high half first (R57, R61, R124). -/
def captured (P : Params) (high low : Nat) : Instr := .sym (clip P high) (clip P low)

/-- A run: the operations of a list, one after the other, stopping at the first stop (R100). -/
def runOps : List Instr → State → Host.Outcome State Fault Refusal
  | [], s => .next s
  | i :: is, s =>
    match exec i s with
    | .next t => runOps is t
    | .fault e => .fault e
    | .refused e => .refused e

/-- The outcomes other than `None`, each with the index of its operation (R65). -/
def reported (os : List StepOutcome) : List (Nat × StepOutcome) :=
  (os.zipIdx.filter fun p => decide (p.1 ≠ .none)).map fun p => (p.2, p.1)

/-- The emissions of a run, in the order of their end bits: what reaches the consumer's sink (R42). -/
def emissions (os : List StepOutcome) : List (Packet × ValidationResult) :=
  os.filterMap fun o =>
    match o with
    | .emit p res => some (p, res)
    | .abort _ _ => none
    | .none => none

end Sys2Proof.Machine
end

