-- ==== Sys2Proof/Safety.lean ====
section
/-! DEFINITION. What claims are stated in: the invariant (10_state.md R26), the transition table written
as a relation from R104's rows, when an operation executes (R36, R121), and the host's duty on the port
word (70_reset_and_hazards.md R125). -/

namespace Sys2Proof.Machine

/-- The conditions under which every operation executes: a valid configuration (R36) and an `RST` taken
(R121). -/
abbrev State.ready (s : State) : Prop := cfgOk s.par s.cfg = true ∧ s.resetDone = true

/-- `s` with other registers and one more outcome, all else unchanged: how a claim spells the state after
an operation (the output stream: notes/assumptions/6.md). -/
def State.after (s : State) (r : Regs) (o : StepOutcome) : State :=
  { s with regs := r, output := s.output ++ [o] }

/-- The invariants of R26, clauses (a) to (h), with the widths R13 gives the counters and the canonical
form of the buffer. -/
structure RegsInv (P : Params) (c : Cfg) (r : Regs) : Prop where
  pcount_fits : r.pcount ≤ 2 ^ P.preW - 1
  pktPre_fits : r.pktPre ≤ 2 ^ P.preW - 1
  buf_wf : Memory.wf r.buf = true
  /-- (a) -/
  seek_empty : r.st = .seek → r.pktPre = 0 ∧ r.sreg = 0#8 ∧ r.bitcnt = 0#3 ∧ r.nbytes = 0 ∧ r.xacc = 0#8 ∧
    ∀ i, Memory.read r.buf i = 0#8
  /-- (b) -/
  inFrame_pre : r.st ≠ .seek → r.pcount = 0 ∧ c.minPreambleBits ≤ r.pktPre
  /-- (c) -/
  data_room : r.st = .data → r.nbytes < c.maxBytes
  /-- (d) -/
  stop_full : r.st = .stop → r.bitcnt = 0#3 ∧ r.sreg = 0#8 ∧ 1 ≤ r.nbytes ∧ r.nbytes ≤ c.maxBytes
  /-- (e) -/
  sreg_small : r.sreg.toNat < 2 ^ r.bitcnt.toNat
  /-- (f) -/
  xacc_eq : r.xacc = xorBytes ((List.range r.nbytes).map (Memory.read r.buf))
  /-- (g) -/
  buf_zero : ∀ i, r.nbytes ≤ i → Memory.read r.buf i = 0#8
  /-- (h) -/
  nbytes_le : r.nbytes ≤ c.maxBytes ∧ c.maxBytes ≤ P.bufN

/-- The invariant of a decoder: its configuration is valid, and once an `RST` has been taken its
registers are as R26 says. -/
structure State.Inv (s : State) : Prop where
  cfg_ok : cfgOk s.par s.cfg = true
  regs_ok : s.resetDone = true → RegsInv s.par s.cfg s.regs

/-- The classified bit an operation hands to the synchronizer, none for `RST`, `IDLE`, `NOP`
(R62, R73, R55). -/
def bitOf (c : Cfg) : Instr → Option Bit
  | .rst => none
  | .idle => none
  | .sym dH dL => some (classify c dH dL)
  | .nop => none
  | .b0 => some .zero
  | .b1 => some .one
  | .bx => some .invalid
  | .bxRsv => some .invalid

/-- Rows T4 to T15 of the transition table (R104), written from the table and not from `stepBit`:
`Row P c b r r' o` is one row for the bit `b`, from `r` to `r'` with outcome `o`. -/
inductive Row (P : Params) (c : Cfg) : Bit → Regs → Regs → StepOutcome → Prop
  | t4 (r : Regs) (h : r.st = .seek) :
      Row P c .invalid r Regs.reset (.abort .invalidSymbol false)
  | t5 (r : Regs) (h : r.st = .data ∨ r.st = .stop) :
      Row P c .invalid r Regs.reset (.abort .invalidSymbol true)
  | t6 (r : Regs) (h : r.st = .seek) :
      Row P c .one r { r with pcount := satInc P.preW r.pcount } .none
  | t7 (r : Regs) (h : r.st = .seek) (hp : r.pcount ≥ c.minPreambleBits) :
      Row P c .zero r { r with st := .data, pktPre := r.pcount, pcount := 0 } .none
  | t8 (r : Regs) (h : r.st = .seek) (hp : r.pcount < c.minPreambleBits) :
      Row P c .zero r { r with pcount := 0 } .none
  | t9 (r : Regs) (b : Bit) (v : Bool) (hv : b = if v then .one else .zero) (h : r.st = .data)
      (hb : r.bitcnt < 7) :
      Row P c b r { r with sreg := shifted r.sreg v, bitcnt := r.bitcnt + 1 } .none
  | t10 (r : Regs) (b : Bit) (v : Bool) (hv : b = if v then .one else .zero) (h : r.st = .data)
      (hb : r.bitcnt = 7) :
      Row P c b r { r with
        buf := Memory.write r.buf r.nbytes (shifted r.sreg v)
        xacc := r.xacc ^^^ shifted r.sreg v
        nbytes := r.nbytes + 1
        sreg := 0#8
        bitcnt := 0#3
        st := .stop } .none
  | t11 (r : Regs) (h : r.st = .stop) (hn : r.nbytes < c.maxBytes) :
      Row P c .zero r { r with st := .data } .none
  | t12 (r : Regs) (h : r.st = .stop) (hn : r.nbytes = c.maxBytes) :
      Row P c .zero r Regs.reset (.abort .byteCeilingExceeded true)
  | t13 (r : Regs) (h : r.st = .stop) (hn : r.nbytes ≥ 3) (hx : r.xacc = 0#8) :
      Row P c .one r Regs.reset
        (.emit { pre := r.pktPre, n := r.nbytes, bytes := (List.range r.nbytes).map (Memory.read r.buf) } .valid)
  | t14 (r : Regs) (h : r.st = .stop) (hn : r.nbytes ≥ 3) (hx : r.xacc ≠ 0#8) :
      Row P c .one r Regs.reset
        (.emit { pre := r.pktPre, n := r.nbytes, bytes := (List.range r.nbytes).map (Memory.read r.buf) }
          .checksumMismatch)
  | t15 (r : Regs) (h : r.st = .stop) (hn : r.nbytes < 3) :
      Row P c .one r Regs.reset (.abort .framingViolation true)

/-- The host's duty on a port word: at most one strobe (R125). -/
def oneStrobe (P : Params) (w : Nat) : Bool :=
  !(portRst P w && portIdle P w) && !(portRst P w && portSymValid P w) &&
    !(portIdle P w && portSymValid P w)

end Sys2Proof.Machine
end

