-- ==== Sys2Proof/Certificates/Slice0/Obligations.lean ====
section
/-! DEFINITION. The statements for the provers, from the numbered rules of spec/. In all of them the
parameters `par` and the configuration `cfg` are any (notes/assumptions/1.md), `resetDone` is the model's
flag for R121 (notes/assumptions/4.md), and outcomes stand in the state's output stream
(notes/assumptions/6.md). A statement about "an operation `i` whose bit is `b`" covers the bit-level
operation and every `SYM` that classifies so. -/

open Sys2Proof Sys2Proof.Machine

/-! ## Port-level operations -/

/-- R103: every port word with `rst = 1` is `RST`, whatever the other fields; its canonical word; from
any register contents, before the first reset as after it, it gives `RESET_STATE` and outcome `None`,
leaving parameters, configuration and input alone. -/
def Obligations.RstReachesResetStateFromAny : Prop :=
  (∀ (P : Params) (w : Nat), w < 2 ^ P.portW → w.testBit (2 * P.durW + 2) = true →
    decode P (.port w) = .ok .rst) ∧
  encode Params.default .rst = .port 0x400000000 ∧
  ∀ s : State, cfgOk s.par s.cfg = true →
    exec .rst s = .next { s.after Regs.reset .none with resetDone := true }

/-- R102: every port word with `rst = 0, idle = 1` is `IDLE`, a symbol in it dropped; its canonical
word; from every position it gives `RESET_STATE`, silently. -/
def Obligations.IdleEmptiesSilently : Prop :=
  (∀ (P : Params) (w : Nat), w < 2 ^ P.portW → w.testBit (2 * P.durW + 2) = false →
    w.testBit (2 * P.durW + 1) = true → decode P (.port w) = .ok .idle) ∧
  encode Params.default .idle = .port 0x200000000 ∧
  ∀ s : State, s.ready → exec .idle s = .next (s.after Regs.reset .none)

/-- R101: every port word with no strobe is `NOP`; its canonical word; it changes nothing and reports
nothing, and neither does any number of them. -/
def Obligations.NopsChangeNothing : Prop :=
  (∀ (P : Params) (w : Nat), w < 2 ^ P.portW → w.testBit (2 * P.durW + 2) = false →
    w.testBit (2 * P.durW + 1) = false → w.testBit (2 * P.durW) = false →
    decode P (.port w) = .ok .nop) ∧
  encode Params.default .nop = .port 0 ∧
  ∀ s : State, s.ready → exec .nop s = .next (s.after s.regs .none) ∧
    ∀ k : Nat, runOps (List.replicate k .nop) s =
      .next { s with output := s.output ++ List.replicate k .none }

/-! ## Encoding -/

/-- R53 with the slices of R52: the total priority decode of a port word, and the canonical words for
`DUR_W = 16`. -/
def Obligations.PortWordPriorityDecode : Prop :=
  (∀ (P : Params) (w : Nat), w < 2 ^ P.portW → decode P (.port w) = .ok (
    if w.testBit (2 * P.durW + 2) then .rst
    else if w.testBit (2 * P.durW + 1) then .idle
    else if w.testBit (2 * P.durW) then
      .sym (w / 2 ^ P.durW % 2 ^ P.durW) (w % 2 ^ P.durW)
    else .nop)) ∧
  encode Params.default .rst = .port 0x400000000 ∧
  encode Params.default .idle = .port 0x200000000 ∧
  encode Params.default .nop = .port 0x000000000 ∧
  ∀ dH dL : Nat, encode Params.default (.sym dH dL) = .port (0x100000000 + dH * 0x10000 + dL)

/-- For every width of the durations, decoding the canonical word of a well-formed operation gives it
back, with every operand. -/
def Obligations.DecodeEncodeRoundTrip : Prop :=
  ∀ (P : Params) (i : Instr), i.wellFormed P = true → decode P (encode P i) = .ok i

/-- R63: no word of an interface is illegal. Every port word and every bit code decodes, to an operation
whose operands fit; only what is wider than its interface does not (that refusal is the model's choice,
notes/assumptions/10.md). -/
def Obligations.NoPresentableWordIsIllegal : Prop :=
  ∀ (P : Params) (w : InWord),
    ((∃ i, decode P w = .ok i) ↔ w.wellFormed P = true) ∧
    ∀ i, decode P w = .ok i → i.wellFormed P = true

/-- Words written out from the patterns of 30_encoding.md sections 2 and 3, one or more a row of the
opcode table, decode to the row's operation (table numbering, `DUR_W = 16`). -/
def Obligations.OpcodeTableWordsDecode : Prop :=
  decodeTableWord 40 0b10000000000000000000000000000000000 = some .rst ∧
  decodeTableWord 40 0b11111111111111111111111111111111111 = some .rst ∧
  decodeTableWord 40 0b01100000000001110100000000000111010 = some .idle ∧
  decodeTableWord 40 0b00100000000001110100000000000111010 = some (.sym 58 58) ∧
  decodeTableWord 40 0b00100000000001101100000000000111110 = some (.sym 54 62) ∧
  decodeTableWord 40 0b00011111111111111111111111111111111 = some .nop ∧
  decodeTableWord 8 0b00 = some .b0 ∧ decodeTableWord 8 0b01 = some .b1 ∧
  decodeTableWord 8 0b10 = some .bx ∧ decodeTableWord 8 0b11 = some .bxRsv

/-- R54 and R55: the codes of the three bits, the operation named after each, and the reserved code,
taken for `Invalid` and behaving as `BX` in every state. -/
def Obligations.BitCodesAndReservedCode : Prop :=
  (∀ (P : Params) (b : Bit), decode P (.bit b.code.toNat) = .ok b.op ∧ Bit.ofCode b.code = b) ∧
  Bit.code .zero = 0b00#2 ∧ Bit.code .one = 0b01#2 ∧ Bit.code .invalid = 0b10#2 ∧
  Bit.op .zero = .b0 ∧ Bit.op .one = .b1 ∧ Bit.op .invalid = .bx ∧
  Bit.ofCode 0b11#2 = .invalid ∧
  (∀ P : Params, decode P (.bit 0b11) = .ok .bxRsv) ∧
  ∀ s : State, exec .bxRsv s = exec .bx s

/-- R125: on a word that keeps the host's duty (at most one strobe) the priority does not matter: each
strobe alone decides. -/
def Obligations.OneStrobeWordsNeedNoPriority : Prop :=
  ∀ (P : Params) (w : Nat), w < 2 ^ P.portW → oneStrobe P w = true →
    (w.testBit (2 * P.durW + 2) = true ↔ decode P (.port w) = .ok .rst) ∧
    (w.testBit (2 * P.durW + 1) = true ↔ decode P (.port w) = .ok .idle) ∧
    (w.testBit (2 * P.durW) = true ↔
      decode P (.port w) = .ok (.sym (w / 2 ^ P.durW % 2 ^ P.durW) (w % 2 ^ P.durW)))

/-- R61 (host's clipping, R124): every measured cell can be presented, a cell that fits is presented as
measured, and a clipped half classifies `Invalid` when the bands lie below the greatest duration. -/
def Obligations.CapturedCellIsPresentable : Prop :=
  ∀ (P : Params) (high low : Nat),
    (captured P high low).wellFormed P = true ∧
    (high < 2 ^ P.durW → low < 2 ^ P.durW → captured P high low = .sym high low) ∧
    ∀ c : Cfg, c.zeroHigh + c.margin ≤ 2 ^ P.durW - 1 → c.zeroLow + c.margin ≤ 2 ^ P.durW - 1 →
      c.oneHigh + c.margin ≤ 2 ^ P.durW - 1 → c.oneLow + c.margin ≤ 2 ^ P.durW - 1 →
      2 ^ P.durW ≤ high ∨ 2 ^ P.durW ≤ low →
      classify c (clip P high) (clip P low) = .invalid

/-! ## Classifier -/

/-- R68: the band is the open interval `(nom - m, nom + m)` over the integers, of `2m - 1` members for
`m ≥ 1`; both edges are out, and the band of margin 0 is empty. -/
def Obligations.BandIsOpenInterval : Prop :=
  ∀ d nom m : Nat,
    (inBand d nom m = true ↔ (nom : Int) - m < d ∧ (d : Int) < nom + m) ∧
    (1 ≤ m → (Finset.Ioo ((nom : Int) - m) (nom + m)).card = 2 * m - 1) ∧
    inBand (nom + m) nom m = false ∧
    (m ≤ nom → inBand (nom - m) nom m = false) ∧
    inBand d nom 0 = false

/-- The spec's own derived form in 40_classifier.md section 2: in unsigned words of `DUR_W + 1` bits the
test without a subtraction computes the same predicate. -/
def Obligations.BandTestInUnsignedWords : Prop :=
  ∀ W d nom m : Nat, d < 2 ^ W → nom < 2 ^ W → m < 2 ^ W →
    inBand d nom m =
      (decide (BitVec.ofNat (W + 1) d + BitVec.ofNat (W + 1) m > BitVec.ofNat (W + 1) nom) &&
        decide (BitVec.ofNat (W + 1) d < BitVec.ofNat (W + 1) nom + BitVec.ofNat (W + 1) m))

/-- R70: `Zero` if both halves lie in the zero bands, else `One` if both lie in the one bands, else
`Invalid`. -/
def Obligations.ClassificationByBands : Prop :=
  ∀ (c : Cfg) (dH dL : Nat),
    let zero := inBand dH c.zeroHigh c.margin = true ∧ inBand dL c.zeroLow c.margin = true
    let one := inBand dH c.oneHigh c.margin = true ∧ inBand dL c.oneLow c.margin = true
    (classify c dH dL = .zero ↔ zero) ∧
    (classify c dH dL = .one ↔ ¬ zero ∧ one) ∧
    (classify c dH dL = .invalid ↔ ¬ zero ∧ ¬ one)

/-- The spec's derived rule in 40_classifier.md section 3: under a valid configuration no symbol meets
both tests, so the order of the tests does not matter, whatever the Low bands are. -/
def Obligations.ValidBandsAreExclusive : Prop :=
  ∀ (P : Params) (c : Cfg) (dH dL : Nat), cfgOk P c = true →
    ¬ (isZero c dH dL = true ∧ isOne c dH dL = true) ∧
    classify c dH dL = (if isOne c dH dL then .one else if isZero c dH dL then .zero else .invalid)

/-- The spec's derived numbers for the suggested configuration (40_classifier.md section 3). The
configuration is the spec's suggestion, notes/assumptions/2.md. -/
def Obligations.SuggestedBands : Prop :=
  cfgOk Params.default Cfg.default = true ∧
  ∀ dH dL : Nat,
    (classify Cfg.default dH dL = .one ↔ (54 ≤ dH ∧ dH ≤ 62) ∧ (54 ≤ dL ∧ dL ≤ 62)) ∧
    (classify Cfg.default dH dL = .zero ↔ (96 ≤ dH ∧ dH ≤ 104) ∧ (96 ≤ dL ∧ dL ≤ 104))

/-- R73: `SYM dH, dL` decodes from its canonical word with both operands, acts in every state as the
bit-level operation of its class, and reports `InvalidSymbol` exactly when it classifies `Invalid`. -/
def Obligations.SymbolActsAsItsBit : Prop :=
  ∀ dH dL : Nat,
    (∀ P : Params, dH < 2 ^ P.durW → dL < 2 ^ P.durW →
      decode P (.port (2 ^ (2 * P.durW) + dH * 2 ^ P.durW + dL)) = .ok (.sym dH dL)) ∧
    ∀ s : State,
      exec (.sym dH dL) s = exec (classify s.cfg dH dL).op s ∧
      (s.ready → ((∃ t f, exec (.sym dH dL) s = .next t ∧
        t.output = s.output ++ [.abort .invalidSymbol f]) ↔ classify s.cfg dH dL = .invalid))

/-! ## Synchronizer -/

/-- R79: a `One` in `SEEK` adds one to the count, which stays at its maximum once there. -/
def Obligations.OneExtendsPreamble : Prop :=
  ∀ (s : State) (i : Instr), s.ready → bitOf s.cfg i = some .one → s.regs.st = .seek →
    exec i s = .next (s.after
      { s.regs with pcount :=
          if s.regs.pcount < 2 ^ s.par.preW - 1 then s.regs.pcount + 1 else 2 ^ s.par.preW - 1 }
      .none)

/-- R80: a `Zero` in `SEEK` after enough ones opens the frame and latches the count. -/
def Obligations.StartBitOpensFrame : Prop :=
  ∀ (s : State) (i : Instr), s.ready → bitOf s.cfg i = some .zero → s.regs.st = .seek →
    s.cfg.minPreambleBits ≤ s.regs.pcount →
    exec i s = .next (s.after
      { s.regs with st := .data, pktPre := s.regs.pcount, pcount := 0 } .none)

/-- R81: a `Zero` in `SEEK` after too few ones clears the count and raises nothing. -/
def Obligations.ShortPreambleIsCleared : Prop :=
  ∀ (s : State) (i : Instr), s.ready → bitOf s.cfg i = some .zero → s.regs.st = .seek →
    s.regs.pcount < s.cfg.minPreambleBits →
    exec i s = .next (s.after { s.regs with pcount := 0 } .none)

/-- R82: an `Invalid` bit, by `BX`, the reserved code or a symbol, in any position gives `RESET_STATE`
and `Abort(InvalidSymbol, st ≠ SEEK)`. -/
def Obligations.InvalidBitAbortsAnywhere : Prop :=
  ∀ (s : State) (i : Instr), s.ready → bitOf s.cfg i = some .invalid →
    exec i s = .next (s.after Regs.reset (.abort .invalidSymbol (decide (s.regs.st ≠ .seek))))

/-! ## Assembler -/

/-- R87: a data bit. Below seven bits held it shifts in at bit 0; the eighth stores the byte in
`buf[nbytes]`, joins it to the accumulator, and moves to the separator position. The byte is
`sreg[6:0]` followed by the bit. -/
def Obligations.DataBitsAssembleBytes : Prop :=
  ∀ (s : State) (i : Instr) (v : Bool), s.ready →
    bitOf s.cfg i = some (if v then .one else .zero) → s.regs.st = .data →
    (shifted s.regs.sreg v).toNat = s.regs.sreg.toNat % 128 * 2 + v.toNat ∧
    (s.regs.bitcnt < 7 → exec i s = .next (s.after
      { s.regs with sreg := shifted s.regs.sreg v, bitcnt := s.regs.bitcnt + 1 } .none)) ∧
    (s.regs.bitcnt = 7 → s.regs.nbytes < s.par.bufN → exec i s = .next (s.after
      { s.regs with
        buf := Memory.write s.regs.buf s.regs.nbytes (shifted s.regs.sreg v)
        xacc := s.regs.xacc ^^^ shifted s.regs.sreg v
        nbytes := s.regs.nbytes + 1
        sreg := 0#8
        bitcnt := 0#3
        st := .stop } .none))

/-- R88: a `Zero` separator below the ceiling opens the next byte and changes nothing else. -/
def Obligations.ZeroSeparatorOpensNextByte : Prop :=
  ∀ (s : State) (i : Instr), s.ready → bitOf s.cfg i = some .zero → s.regs.st = .stop →
    s.regs.nbytes < s.cfg.maxBytes →
    exec i s = .next (s.after { s.regs with st := .data } .none)

/-- R89: a `Zero` separator after byte number `maxBytes` aborts the frame; a `One` there completes a
packet of exactly `maxBytes` bytes. -/
def Obligations.ZeroSeparatorAtCeilingAborts : Prop :=
  ∀ (s : State) (i : Instr), s.ready → s.regs.st = .stop → s.regs.nbytes = s.cfg.maxBytes →
    (bitOf s.cfg i = some .zero →
      exec i s = .next (s.after Regs.reset (.abort .byteCeilingExceeded true))) ∧
    (bitOf s.cfg i = some .one → ∃ p v, p.n = s.cfg.maxBytes ∧
      exec i s = .next (s.after Regs.reset (.emit p v)))

/-! ## Validator and emitter -/

/-- R92, R96: the end bit after at least three bytes emits the preamble length, the count and the bytes
`buf[0 .. nbytes-1]` as they stood before the step, `Valid` exactly when the accumulator is 0, and
discards all packet state. -/
def Obligations.EndBitEmitsPacket : Prop :=
  ∀ (s : State) (i : Instr), s.ready → bitOf s.cfg i = some .one → s.regs.st = .stop →
    3 ≤ s.regs.nbytes → s.regs.nbytes ≤ s.par.bufN →
    exec i s = .next (s.after Regs.reset (.emit
      { pre := s.regs.pktPre
        n := s.regs.nbytes
        bytes := (List.range s.regs.nbytes).map (Memory.read s.regs.buf) }
      (if s.regs.xacc = 0#8 then .valid else .checksumMismatch)))

/-- R95: a `One` separator after the first or second byte aborts the frame. -/
def Obligations.EarlyOneViolatesFraming : Prop :=
  ∀ (s : State) (i : Instr), s.ready → bitOf s.cfg i = some .one → s.regs.st = .stop →
    s.regs.nbytes < 3 →
    exec i s = .next (s.after Regs.reset (.abort .framingViolation true))

/-- The spec's derived rule in 43_checksum_emitter.md section 2: in every state that meets the
invariant, the accumulator is 0 exactly when the exclusive or of all bytes but the last equals the last
byte. -/
def Obligations.AccumulatorTestIsChecksumComparison : Prop :=
  ∀ (P : Params) (c : Cfg) (r : Regs), RegsInv P c r → 1 ≤ r.nbytes →
    (r.xacc = 0#8 ↔
      xorBytes ((List.range (r.nbytes - 1)).map (Memory.read r.buf)) = Memory.read r.buf (r.nbytes - 1))

/-- The spec's derived rule in 43_checksum_emitter.md section 4 (R97): only the end bit emits. -/
def Obligations.OnlyEndBitEmits : Prop :=
  ∀ (s t : State) (i : Instr) (p : Packet) (v : ValidationResult),
    exec i s = .next t → t.output = s.output ++ [.emit p v] →
    bitOf s.cfg i = some .one ∧ s.regs.st = .stop ∧ 3 ≤ s.regs.nbytes

/-! ## The transition table and the machine's rules -/

/-- The transition table (44_port_operations.md section 5, the spec's derived table): in every state that
meets the invariant, every operation that carries a bit completes by a row of the table, and by no
other; `SYM` takes the row of its class. -/
def Obligations.TransitionTableIsTheMachine : Prop :=
  ∀ (s : State) (i : Instr) (b : Bit), s.Inv → s.resetDone = true → bitOf s.cfg i = some b →
    (∃ r o, Row s.par s.cfg b s.regs r o ∧ exec i s = .next (s.after r o)) ∧
    ∀ r o, Row s.par s.cfg b s.regs r o → exec i s = .next (s.after r o)

/-- The machine's step: when the next word of the input stream decodes, the step takes it from the
stream and runs that operation. -/
def Obligations.StepRunsDecodedOperation : Prop :=
  ∀ (s : State) (w : InWord) (ws : List InWord) (i : Instr),
    s.input = w :: ws → decode s.par w = .ok i → step s = exec i { s with input := ws }

/-- A run of the machine over the canonical words of well-formed operations is the run of the operations
(44_port_operations.md section 1): encoding, the input stream and decoding add nothing. -/
def Obligations.MachineRunIsOperationRun : Prop :=
  ∀ (s : State) (ops : List Instr) (rest : List InWord), (∀ i ∈ ops, i.wellFormed s.par = true) →
    (Host.Core.run Sys2Proof.core ops.length
      ({ s with input := ops.map (encode s.par) ++ rest } : State) : Host.Outcome State Fault Refusal) =
    runOps ops { s with input := rest }

/-- `RESET_STATE` (R25, R122): every register at its reset value; the machine right after reset is in it. -/
def Obligations.ResetStateValues : Prop :=
  State.reset.regs = Regs.reset ∧
  Regs.reset.st = .seek ∧ Regs.reset.pcount = 0 ∧ Regs.reset.pktPre = 0 ∧ Regs.reset.sreg = 0#8 ∧
  Regs.reset.bitcnt = 0#3 ∧ Regs.reset.nbytes = 0 ∧ Regs.reset.xacc = 0#8 ∧
  ∀ i : Nat, Memory.read Regs.reset.buf i = 0#8

/-- The invariant holds right after reset. -/
def Obligations.ResetMeetsInvariant : Prop :=
  State.reset.Inv

/-- The invariants of 10_state.md section 5 (the spec's derived rule, clauses (a) to (h)), with the
counters' widths and the buffer's canonical form, are kept by every step from every state that meets
them. -/
def Obligations.StepKeepsInvariant : Prop :=
  ∀ s t : State, s.Inv → step s = .next t → t.Inv

/-- R110: nothing is fatal. From every state that meets the invariant, once reset, any word an interface
can carry has a successor. -/
def Obligations.EveryPresentableWordHasSuccessor : Prop :=
  ∀ (s : State) (w : InWord) (ws : List InWord), s.Inv → s.resetDone = true →
    s.input = w :: ws → w.wellFormed s.par = true → ∃ t, step s = .next t ∧ t.Inv

/-- The configuration record and the structural parameters are written by no step (10_state.md section
6), and a decoder once reset stays so. -/
def Obligations.ConfigurationIsImmutable : Prop :=
  ∀ s t : State, step s = .next t →
    t.cfg = s.cfg ∧ t.par = s.par ∧ (s.resetDone = true → t.resetDone = true)

/-- One step consumes exactly one word and yields exactly one outcome, after all earlier ones
(00_scope.md sections 4 and 6; the streams are notes/assumptions/5.md and 6.md). -/
def Obligations.OneWordOneOutcomePerStep : Prop :=
  ∀ s t : State, step s = .next t →
    (∃ w, s.input = w :: t.input) ∧ ∃ o, t.output = s.output ++ [o]

/-- R114: every abort records whether a frame was in progress and leaves `RESET_STATE`, the bit that
caused it consumed. -/
def Obligations.AbortLeavesResetState : Prop :=
  ∀ (s t : State) (i : Instr) (c : Cause) (f : Bool),
    exec i s = .next t → t.output = s.output ++ [.abort c f] →
    f = decide (s.regs.st ≠ .seek) ∧ t.regs = Regs.reset ∧ t.input = s.input

/-- R36: `cfg_ok` is its four clauses over the integers, and a configuration that fails them gives no
operation a meaning. -/
def Obligations.InvalidConfigurationRefused : Prop :=
  (∀ (P : Params) (c : Cfg), cfgOk P c = true ↔
    (c.oneHigh : Int) + c.margin < (c.zeroHigh : Int) - c.margin ∧
    (1 ≤ c.minPreambleBits ∧ c.minPreambleBits ≤ 2 ^ P.preW - 1) ∧
    (3 ≤ c.maxBytes ∧ c.maxBytes ≤ P.bufN) ∧
    c.zeroHigh < 2 ^ P.durW ∧ c.zeroLow < 2 ^ P.durW ∧ c.oneHigh < 2 ^ P.durW ∧
    c.oneLow < 2 ^ P.durW ∧ c.margin < 2 ^ P.durW) ∧
  ∀ (s : State) (i : Instr), cfgOk s.par s.cfg = false → exec i s = .refused .invalidConfig

/-- R121: before the first `RST` no other operation has a meaning, whatever the registers hold. -/
def Obligations.RefusedBeforeFirstReset : Prop :=
  ∀ (s : State) (i : Instr), cfgOk s.par s.cfg = true → s.resetDone = false → i ≠ .rst →
    exec i s = .refused .notReset

/-- The model's choice (notes/assumptions/5.md): with no word presented there is no step; the run has
ended (70_reset_and_hazards.md section 4). -/
def Obligations.EndOfInputEndsRun : Prop :=
  ∀ s : State, s.input = [] → step s = .refused .noPortWord

/-- R24: the source's `SyncState` as a view of the registers; right after any resynchronisation it is
`SeekingPreamble(0)`. -/
def Obligations.SyncStateViewOfSource : Prop :=
  (∀ (c : Cfg) (r : Regs),
    (r.st = .seek → r.pcount < c.minPreambleBits → syncView c r = .seekingPreamble r.pcount) ∧
    (r.st = .seek → c.minPreambleBits ≤ r.pcount → syncView c r = .awaitingStartBit) ∧
    (r.st = .data ∨ r.st = .stop → syncView c r = .inFrame)) ∧
  ∀ (P : Params) (c : Cfg), cfgOk P c = true → syncView c Regs.reset = .seekingPreamble 0

/-! ## Frames -/

/-- The byte that completes is stored at `nbytes` and nowhere else: every other cell reads as before,
and the preamble registers stay (42_assembler.md section 2, 20_memory.md section 1). -/
def Obligations.CompletedByteStoreFrame : Prop :=
  ∀ (s t : State) (i : Instr) (v : Bool), s.Inv → bitOf s.cfg i = some (if v then .one else .zero) →
    s.regs.st = .data → s.regs.bitcnt = 7 → exec i s = .next t →
    Memory.read t.regs.buf s.regs.nbytes = shifted s.regs.sreg v ∧
    (∀ a, a ≠ s.regs.nbytes → Memory.read t.regs.buf a = Memory.read s.regs.buf a) ∧
    t.regs.pktPre = s.regs.pktPre ∧ t.regs.pcount = s.regs.pcount ∧
    t.cfg = s.cfg ∧ t.par = s.par ∧ t.input = s.input ∧ t.resetDone = s.resetDone

/-- An operation that is neither `RST` nor `IDLE`, completes no byte and reports nothing (`NOP`, a bit
counted or cleared in `SEEK`, a start bit, one of the first seven bits of a byte, a `Zero` separator)
leaves every cell, the byte count and the accumulator; outside `DATA` it leaves the shift register and
its count; only a start bit writes the preamble length, and only `SEEK` writes the preamble count. -/
def Obligations.NonStoringFrame : Prop :=
  ∀ (s t : State) (i : Instr), exec i s = .next t → i ≠ .rst → i ≠ .idle →
    t.output = s.output ++ [.none] →
    ¬ (s.regs.st = .data ∧ s.regs.bitcnt = 7 ∧ i ≠ .nop) →
    (∀ a, Memory.read t.regs.buf a = Memory.read s.regs.buf a) ∧
    t.regs.nbytes = s.regs.nbytes ∧ t.regs.xacc = s.regs.xacc ∧
    (s.regs.st ≠ .data → t.regs.sreg = s.regs.sreg ∧ t.regs.bitcnt = s.regs.bitcnt) ∧
    (s.regs.st ≠ .seek → t.regs.pktPre = s.regs.pktPre ∧ t.regs.pcount = s.regs.pcount) ∧
    (bitOf s.cfg i ≠ some .zero → t.regs.pktPre = s.regs.pktPre) ∧
    t.cfg = s.cfg ∧ t.par = s.par ∧ t.input = s.input ∧ t.resetDone = s.resetDone

/-! ## Output pins -/

/-- R56: what the pins show for each outcome; an undriven pin is not constrained
(notes/assumptions/9.md). -/
def Obligations.OutputPinsShowOutcome : Prop :=
  ∀ (P : Params) (c : Cfg) (k : Nat),
    (∀ o, (outPins P c k o).cfgOkO = (if cfgOk P c then 1#1 else 0#1)) ∧
    ((outPins P c k .none).pktStrobe = 0#1 ∧ (outPins P c k .none).errStrobe = 0#1) ∧
    (∀ (cause : Cause) (f : Bool), let q := outPins P c k (.abort cause f)
      q.pktStrobe = 0#1 ∧ q.errStrobe = 1#1 ∧ q.errInframe = (if f then 1#1 else 0#1) ∧
      q.errCode = (match cause with
        | .invalidSymbol => 1#2
        | .framingViolation => 2#2
        | .byteCeilingExceeded => 3#2)) ∧
    ∀ (p : Packet) (v : ValidationResult), let q := outPins P c k (.emit p v)
      q.pktStrobe = 1#1 ∧ q.errStrobe = 0#1 ∧
      q.pktResult = (match v with | .valid => 0#1 | .checksumMismatch => 1#1) ∧
      q.pktPreO = BitVec.ofNat P.preW p.pre ∧ q.pktN = BitVec.ofNat P.nbW p.n ∧
      q.pktByte.length = P.bufN ∧
      ∀ i, i < P.bufN →
        (i < p.n → q.pktByte[i]? = some (p.bytes.getD i 0#8)) ∧ (p.n ≤ i → q.pktByte[i]? = some 0#8)

/-- From every state that meets the invariant, an emitted packet has 3 to `maxBytes` bytes, a preamble
length of at least the minimum, the verdict the exclusive or of its bytes gives, and numbers that the
pins carry without loss (30_encoding.md section 4, 20_memory.md section 5). -/
def Obligations.EmittedPacketFitsPins : Prop :=
  ∀ (s t : State) (p : Packet) (v : ValidationResult), s.Inv → step s = .next t →
    t.output = s.output ++ [.emit p v] →
    3 ≤ p.n ∧ p.n ≤ s.cfg.maxBytes ∧ p.bytes.length = p.n ∧ s.cfg.minPreambleBits ≤ p.pre ∧
    (v = .valid ↔ xorBytes p.bytes = 0#8) ∧
    ∀ k, (outPins s.par s.cfg k (.emit p v)).pktN.toNat = p.n ∧
      (outPins s.par s.cfg k (.emit p v)).pktPreO.toNat = p.pre

/-! ## Sequences of operations -/

/-- Preamble detection (41_synchronizer.md section 6, the spec's derived rule): `k` ones and a zero from
`RESET_STATE` open a frame with the saturated count exactly when `k` reaches the minimum. -/
def Obligations.PreambleThreshold : Prop :=
  ∀ (s : State) (k : Nat), s.ready → s.regs = Regs.reset →
    runOps (ones k ++ [.b0]) s = .next
      { s with
        regs := if s.cfg.minPreambleBits ≤ k then
            { Regs.reset with st := .data, pktPre := min k (2 ^ s.par.preW - 1) }
          else Regs.reset
        output := s.output ++ List.replicate (k + 1) .none }

/-- The spec's derived rule R90(a) (42_assembler.md section 4), in the bit order of 20_memory.md section 2:
the eight bits of a byte, most significant first, from the start of a byte assemble that byte, as the next
cell of the buffer and into the accumulator. -/
def Obligations.ByteArrivesMostSignificantFirst : Prop :=
  ∀ (s : State) (v : Byte), s.ready → s.regs.st = .data → s.regs.bitcnt = 0#3 → s.regs.sreg = 0#8 →
    s.regs.nbytes < s.par.bufN →
    runOps (byteOps v) s = .next
      { s with
        regs := { s.regs with
          buf := Memory.write s.regs.buf s.regs.nbytes v
          xacc := s.regs.xacc ^^^ v
          nbytes := s.regs.nbytes + 1
          st := .stop }
        output := s.output ++ List.replicate 8 .none }

/-- Idempotent resynchronisation (41_synchronizer.md section 6, the spec's derived rule R85(b) to (d),
widened to every operation that resynchronises): after ANY operation whose step leaves `RESET_STATE`, any
operations end in the same registers and report the same outcomes as from `RESET_STATE`: nothing of the
past shows. The operations that leave it from every position are `RST` and `IDLE`, silently, and an
`Invalid` bit (`BX`, the reserved code, a symbol in no band), with its abort; in the separator position so
do a `One` (an emission or a framing violation) and a `Zero` at the ceiling (its abort). -/
def Obligations.ResynchronisationForgetsThePast : Prop :=
  ∀ (s : State) (z : Instr), s.ready →
    (∀ (u : State) (T : List Instr), exec z s = .next u → u.regs = Regs.reset →
      ∃ (t : State) (o : StepOutcome),
        u = s.after Regs.reset o ∧
        runOps T { s with regs := Regs.reset, output := [] } = .next t ∧
        runOps (z :: T) s = .next { t with output := s.output ++ o :: t.output }) ∧
    (z = .rst ∨ z = .idle → exec z s = .next (s.after Regs.reset .none)) ∧
    (bitOf s.cfg z = some .invalid →
      exec z s = .next (s.after Regs.reset (.abort .invalidSymbol (decide (s.regs.st ≠ .seek))))) ∧
    (bitOf s.cfg z = some .one → s.regs.st = .stop → s.regs.nbytes ≤ s.par.bufN →
      ∃ o, exec z s = .next (s.after Regs.reset o)) ∧
    (bitOf s.cfg z = some .zero → s.regs.st = .stop → s.regs.nbytes = s.cfg.maxBytes →
      exec z s = .next (s.after Regs.reset (.abort .byteCeilingExceeded true)))

/-- What the decoder is for (43_checksum_emitter.md section 5, the spec's derived rule (a)): a packet with enough
preamble and a legal length, from `RESET_STATE`, reports nothing until its end bit and is emitted there,
whole and `Valid`. -/
def Obligations.WellFormedPacketIsEmittedValid : Prop :=
  ∀ (s : State) (p : Nat) (a : Byte) (ds : List Byte), s.ready → s.regs = Regs.reset →
    s.cfg.minPreambleBits ≤ p → 1 ≤ ds.length → ds.length + 2 ≤ s.cfg.maxBytes →
    runOps (packet p a ds) s = .next
      { s with output := s.output ++ List.replicate (p + 9 * (ds.length + 2)) .none ++
          [.emit { pre := min p (2 ^ s.par.preW - 1)
                   n := ds.length + 2
                   bytes := a :: ds ++ [xorBytes (a :: ds)] } .valid] }

/-- Derived rule (b) of the same section: any frame of 3 to `maxBytes` bytes is emitted with its bytes
as given, and its verdict is whether they exclusive-or to 0. -/
def Obligations.FrameVerdictIsExclusiveOr : Prop :=
  ∀ (s : State) (p : Nat) (bs : List Byte), s.ready → s.regs = Regs.reset →
    s.cfg.minPreambleBits ≤ p → 3 ≤ bs.length → bs.length ≤ s.cfg.maxBytes →
    runOps (frame p bs) s = .next
      { s with output := s.output ++ List.replicate (p + 9 * bs.length) .none ++
          [.emit { pre := min p (2 ^ s.par.preW - 1), n := bs.length, bytes := bs }
            (if xorBytes bs = 0#8 then .valid else .checksumMismatch)] }

/-- Derived rule (c) of the same section: a frame of one or two bytes ends in a framing violation. -/
def Obligations.ShortFrameIsFramingViolation : Prop :=
  ∀ (s : State) (p : Nat) (bs : List Byte), s.ready → s.regs = Regs.reset →
    s.cfg.minPreambleBits ≤ p → bs.length = 1 ∨ bs.length = 2 →
    runOps (frame p bs) s = .next
      { s with output := s.output ++ List.replicate (p + 9 * bs.length) .none ++
          [.abort .framingViolation true] }

/-- A frame longer than the ceiling is cut off at the separator after byte number `maxBytes`, and the
rest is read in `SEEK` (42_assembler.md section 3): up to that separator nothing is reported, there the
abort, and the decoder is in `RESET_STATE`. -/
def Obligations.OverlongFrameIsCutAtCeiling : Prop :=
  ∀ (s : State) (p : Nat) (bs : List Byte), s.ready → s.regs = Regs.reset →
    s.cfg.minPreambleBits ≤ p → s.cfg.maxBytes < bs.length →
    runOps ((frame p bs).take (p + 1 + 9 * s.cfg.maxBytes)) s = .next
      { s with output := s.output ++ List.replicate (p + 9 * s.cfg.maxBytes) .none ++
          [.abort .byteCeilingExceeded true] }

/-- Checksum round trip (43_checksum_emitter.md section 2, R94): flip any one bit of any one BYTE of a
frame whose bytes exclusive-or to 0, and it is emitted as `ChecksumMismatch` with its bytes as received.
The frame's other bits (start, separators, end) are no bits of a byte and are not spoken of. -/
def Obligations.AnySingleByteBitFlipIsReported : Prop :=
  ∀ (s : State) (p j k : Nat) (bs : List Byte), s.ready → s.regs = Regs.reset →
    s.cfg.minPreambleBits ≤ p → 3 ≤ bs.length → bs.length ≤ s.cfg.maxBytes → xorBytes bs = 0#8 →
    j < bs.length → k < 8 →
    let bad := bs.set j (bs.getD j 0#8 ^^^ 1#8 <<< k)
    runOps (frame p bad) s = .next
      { s with output := s.output ++ List.replicate (p + 9 * bs.length) .none ++
          [.emit { pre := min p (2 ^ s.par.preW - 1), n := bs.length, bytes := bad } .checksumMismatch] }

/-- Lifting (30_encoding.md section 10): under the suggested durations and margin, a bit-level program
and the same program as symbols have the same end state and outcomes. -/
def Obligations.LiftedProgramsAgree : Prop :=
  ∀ (s : State) (ops : List Instr),
    s.cfg.zeroHigh = 100 → s.cfg.zeroLow = 100 → s.cfg.oneHigh = 58 → s.cfg.oneLow = 58 →
    s.cfg.margin = 5 → runOps (ops.map lift) s = runOps ops s

/-! ## Several decoders -/

/-- Several decoders (R118): a step of line `k` steps that line exactly as the one decoder's `step` does,
in all three outcomes, and leaves every other line as it was. That no step happens on a line that is not
there is the model's choice (notes/assumptions/14.md). -/
def Obligations.LineStepsAsOneDecoder : Prop :=
  ∀ (ls : Lines) (k : Nat),
    (∀ ls', Lines.step k ls = .next ls' →
      ls'.length = ls.length ∧ ∀ j, j ≠ k → ls'[j]? = ls[j]?) ∧
    (∀ s, ls[k]? = some s →
      (∀ t, step s = .next t → ∃ ls', Lines.step k ls = .next ls' ∧ ls'[k]? = some t) ∧
      (∀ e, step s = .fault e → Lines.step k ls = .fault e) ∧
      (∀ e, step s = .refused e → Lines.step k ls = .refused e)) ∧
    (ls[k]? = none → Lines.step k ls = .next ls)

/-- Several decoders are a product of independent models (R118): however the steps of the lines are
interleaved, each line ends as its decoder alone does after as many steps as were its own; and the system
runs whenever each of its decoders alone does. The schedule is the model's form (notes/assumptions/14.md). -/
def Obligations.InterleavedLinesRunAsAlone : Prop :=
  ∀ (ls : Lines) (ks : List Nat),
    (∀ ls', Lines.run ks ls = .next ls' → ls'.length = ls.length ∧
      ∀ (j : Nat) (s : State), ls[j]? = some s → ∃ t : State,
        (Host.Core.run Sys2Proof.core (ks.count j) s : Host.Outcome State Fault Refusal) = .next t ∧
        ls'[j]? = some t) ∧
    ((∀ (j : Nat) (s : State), ls[j]? = some s → ∃ t : State,
        (Host.Core.run Sys2Proof.core (ks.count j) s : Host.Outcome State Fault Refusal) = .next t) →
      ∃ ls', Lines.run ks ls = .next ls')
end

