-- ==== Sys2Proof/Laws/State.lean ====
section
/-! SUPPORT. One lemma per field per update of the state, and what `cfg_ok` says clause by clause. -/

namespace Sys2Proof.Machine

@[simp] theorem commit_par (s : State) (r : Regs) (o : StepOutcome) : (s.commit r o).par = s.par := rfl
@[simp] theorem commit_cfg (s : State) (r : Regs) (o : StepOutcome) : (s.commit r o).cfg = s.cfg := rfl
@[simp] theorem commit_resetDone (s : State) (r : Regs) (o : StepOutcome) :
    (s.commit r o).resetDone = s.resetDone := rfl
@[simp] theorem commit_regs (s : State) (r : Regs) (o : StepOutcome) : (s.commit r o).regs = r := rfl
@[simp] theorem commit_input (s : State) (r : Regs) (o : StepOutcome) : (s.commit r o).input = s.input := rfl
@[simp] theorem commit_output (s : State) (r : Regs) (o : StepOutcome) :
    (s.commit r o).output = s.output ++ [o] := rfl

/-- The meanings' spelling of the state after an operation is the claims'. -/
theorem commit_eq_after (s : State) (r : Regs) (o : StepOutcome) : s.commit r o = s.after r o := rfl

@[simp] theorem after_par (s : State) (r : Regs) (o : StepOutcome) : (s.after r o).par = s.par := rfl
@[simp] theorem after_cfg (s : State) (r : Regs) (o : StepOutcome) : (s.after r o).cfg = s.cfg := rfl
@[simp] theorem after_resetDone (s : State) (r : Regs) (o : StepOutcome) :
    (s.after r o).resetDone = s.resetDone := rfl
@[simp] theorem after_regs (s : State) (r : Regs) (o : StepOutcome) : (s.after r o).regs = r := rfl
@[simp] theorem after_input (s : State) (r : Regs) (o : StepOutcome) : (s.after r o).input = s.input := rfl
@[simp] theorem after_output (s : State) (r : Regs) (o : StepOutcome) :
    (s.after r o).output = s.output ++ [o] := rfl

@[simp] theorem withFetchWord_input (s : State) (n w : Nat) :
    (s.withFetchWord n w).input = tableWord n w :: s.input := rfl
@[simp] theorem withFetchWord_par (s : State) (n w : Nat) : (s.withFetchWord n w).par = s.par := rfl
@[simp] theorem withFetchWord_cfg (s : State) (n w : Nat) : (s.withFetchWord n w).cfg = s.cfg := rfl
@[simp] theorem withFetchWord_resetDone (s : State) (n w : Nat) :
    (s.withFetchWord n w).resetDone = s.resetDone := rfl
@[simp] theorem withFetchWord_regs (s : State) (n w : Nat) : (s.withFetchWord n w).regs = s.regs := rfl
@[simp] theorem withFetchWord_output (s : State) (n w : Nat) : (s.withFetchWord n w).output = s.output := rfl

@[simp] theorem raise_regs (c : Cause) (r : Regs) : (raise c r).1 = Regs.reset := rfl
@[simp] theorem raise_outcome (c : Cause) (r : Regs) : (raise c r).2 = .abort c (inFrame r) := rfl
@[simp] theorem emit_regs (p : Packet) (v : ValidationResult) : (emit p v).1 = Regs.reset := rfl
@[simp] theorem emit_outcome (p : Packet) (v : ValidationResult) : (emit p v).2 = .emit p v := rfl

@[simp] theorem shiftBit_st (v : Bool) (r : Regs) : (shiftBit v r).st = r.st := rfl
@[simp] theorem shiftBit_pcount (v : Bool) (r : Regs) : (shiftBit v r).pcount = r.pcount := rfl
@[simp] theorem shiftBit_pktPre (v : Bool) (r : Regs) : (shiftBit v r).pktPre = r.pktPre := rfl
@[simp] theorem shiftBit_sreg (v : Bool) (r : Regs) : (shiftBit v r).sreg = shifted r.sreg v := rfl
@[simp] theorem shiftBit_bitcnt (v : Bool) (r : Regs) : (shiftBit v r).bitcnt = r.bitcnt + 1 := rfl
@[simp] theorem shiftBit_nbytes (v : Bool) (r : Regs) : (shiftBit v r).nbytes = r.nbytes := rfl
@[simp] theorem shiftBit_xacc (v : Bool) (r : Regs) : (shiftBit v r).xacc = r.xacc := rfl
@[simp] theorem shiftBit_buf (v : Bool) (r : Regs) : (shiftBit v r).buf = r.buf := rfl

@[simp] theorem countOne_st (P : Params) (r : Regs) : (countOne P r).st = r.st := rfl
@[simp] theorem countOne_pcount (P : Params) (r : Regs) : (countOne P r).pcount = satInc P.preW r.pcount := rfl
@[simp] theorem countOne_pktPre (P : Params) (r : Regs) : (countOne P r).pktPre = r.pktPre := rfl
@[simp] theorem countOne_sreg (P : Params) (r : Regs) : (countOne P r).sreg = r.sreg := rfl
@[simp] theorem countOne_bitcnt (P : Params) (r : Regs) : (countOne P r).bitcnt = r.bitcnt := rfl
@[simp] theorem countOne_nbytes (P : Params) (r : Regs) : (countOne P r).nbytes = r.nbytes := rfl
@[simp] theorem countOne_xacc (P : Params) (r : Regs) : (countOne P r).xacc = r.xacc := rfl
@[simp] theorem countOne_buf (P : Params) (r : Regs) : (countOne P r).buf = r.buf := rfl

/-- The conjunction behind `cfgOk`, over naturals. -/
theorem cfgOk_iff (P : Params) (c : Cfg) : cfgOk P c = true ↔
    c.oneHigh + 2 * c.margin < c.zeroHigh ∧
    (1 ≤ c.minPreambleBits ∧ c.minPreambleBits ≤ 2 ^ P.preW - 1) ∧
    (3 ≤ c.maxBytes ∧ c.maxBytes ≤ P.bufN) ∧
    (c.zeroHigh < 2 ^ P.durW ∧ c.zeroLow < 2 ^ P.durW ∧ c.oneHigh < 2 ^ P.durW ∧
      c.oneLow < 2 ^ P.durW ∧ c.margin < 2 ^ P.durW) := by
  have ha : (c.oneHigh : Int) + c.margin < (c.zeroHigh : Int) - c.margin ↔
      c.oneHigh + 2 * c.margin < c.zeroHigh := by omega
  simp only [cfgOk, highBandsOk, preambleOk, ceilingOk, durationsOk, Bool.and_eq_true, decide_eq_true_eq,
    List.all_cons, List.all_nil, ha, and_assoc, and_true]
  exact Iff.rfl

/-- `DUR_W ≥ 1`, the constraint of R7, follows from a valid configuration. -/
theorem durW_pos_of_cfgOk {P : Params} {c : Cfg} (h : cfgOk P c = true) : 1 ≤ P.durW := by
  obtain ⟨ha, -, -, hz, -⟩ := (cfgOk_iff P c).1 h
  by_contra hd
  obtain hd : P.durW = 0 := by omega
  rw [hd] at hz
  omega

/-- `NB_W` holds `BUF_N` (R7). -/
theorem bufN_lt_two_pow_nbW (P : Params) : P.bufN < 2 ^ P.nbW := Nat.lt_log2_self

/-- No narrower width holds it (R7). -/
theorem two_pow_le_bufN (P : Params) (h : P.bufN ≠ 0) : 2 ^ (P.nbW - 1) ≤ P.bufN :=
  Nat.log2_self_le h

end Sys2Proof.Machine
end

