-- ==== Sys2Proof/Laws/Memory.lean ====
section
/-! SUPPORT. The laws of the packet buffer: read after write, the rest untouched, the canonical form
kept, and equal reads make equal buffers. -/

namespace Sys2Proof.Machine

@[simp] theorem Memory.read_nil (i : Nat) : Memory.read [] i = 0#8 := rfl

/-- Below every listed index nothing is listed. -/
theorem Memory.read_of_lt {m : Memory} {a : Nat} (h : m.all (fun c => decide (a < c.1)) = true) {i : Nat}
    (hi : i ≤ a) : Memory.read m i = 0#8 := by
  induction m with
  | nil => rfl
  | cons c m ih =>
    obtain ⟨k, v⟩ := c
    simp only [List.all_cons, Bool.and_eq_true, decide_eq_true_eq] at h
    rw [Memory.read, if_neg (by omega), ih h.2]

theorem Memory.wf_cons {a : Nat} {b : Byte} {m : Memory} :
    Memory.wf ((a, b) :: m) = true ↔
      b ≠ 0#8 ∧ m.all (fun c => decide (a < c.1)) = true ∧ Memory.wf m = true := by
  simp only [Memory.wf, Bool.and_eq_true, decide_eq_true_eq, and_assoc]

/-- A read after a write to the same cell gives the byte written. -/
theorem Memory.read_write_same {m : Memory} (h : Memory.wf m = true) (i : Nat) (v : Byte) :
    Memory.read (Memory.write m i v) i = v := by
  induction m with
  | nil => by_cases hv : v = 0#8 <;> simp [Memory.write, Memory.read, hv]
  | cons c m ih =>
    obtain ⟨a, b⟩ := c
    obtain ⟨-, hlt, hm⟩ := Memory.wf_cons.1 h
    rw [Memory.write]
    split_ifs with h1 h2 hv hv
    · rw [Memory.read, if_neg (by omega), ih hm]
    · rw [Memory.read_of_lt hlt (by omega), hv]
    · simp [Memory.read]
    · rw [Memory.read, if_neg h2, Memory.read_of_lt hlt (by omega), hv]
    · simp [Memory.read]

/-- A write leaves every other cell alone. -/
theorem Memory.read_write_other {m : Memory} {i j : Nat} (hij : j ≠ i) (v : Byte) :
    Memory.read (Memory.write m i v) j = Memory.read m j := by
  induction m with
  | nil => by_cases hv : v = 0#8 <;> simp [Memory.write, Memory.read, hv, hij.symm]
  | cons c m ih =>
    obtain ⟨a, b⟩ := c
    rw [Memory.write]
    split_ifs with h1 h2 hv hv
    · simp only [Memory.read, ih]
    · rw [Memory.read, if_neg (by omega)]
    · rw [Memory.read, Memory.read, if_neg (by omega), if_neg (by omega)]
    · rfl
    · rw [Memory.read, if_neg (by omega)]

/-- Indices a lower bound lies under stay over it after a write at a higher index. -/
theorem Memory.all_lt_write {m : Memory} {a i : Nat} {v : Byte}
    (h : m.all (fun c => decide (a < c.1)) = true) (hi : a < i) :
    (Memory.write m i v).all (fun c => decide (a < c.1)) = true := by
  induction m with
  | nil => by_cases hv : v = 0#8 <;> simp [Memory.write, hv, hi]
  | cons c m ih =>
    obtain ⟨k, b⟩ := c
    have h' := h
    simp only [List.all_cons, Bool.and_eq_true, decide_eq_true_eq] at h'
    rw [Memory.write]
    split_ifs
    · simpa only [List.all_cons, Bool.and_eq_true, decide_eq_true_eq] using ⟨h'.1, ih h'.2⟩
    · exact h'.2
    · simpa only [List.all_cons, Bool.and_eq_true, decide_eq_true_eq] using ⟨hi, h'.2⟩
    · exact h
    · simpa only [List.all_cons, Bool.and_eq_true, decide_eq_true_eq] using ⟨hi, h'.1, h'.2⟩

/-- A write keeps the canonical form. -/
theorem Memory.wf_write {m : Memory} (h : Memory.wf m = true) (i : Nat) (v : Byte) :
    Memory.wf (Memory.write m i v) = true := by
  induction m with
  | nil => by_cases hv : v = 0#8 <;> simp [Memory.write, Memory.wf, hv]
  | cons c m ih =>
    obtain ⟨a, b⟩ := c
    obtain ⟨hb, hlt, hm⟩ := Memory.wf_cons.1 h
    rw [Memory.write]
    split_ifs with h1 h2 hv hv
    · exact Memory.wf_cons.2 ⟨hb, Memory.all_lt_write hlt h1, ih hm⟩
    · exact hm
    · exact Memory.wf_cons.2 ⟨hv, h2 ▸ hlt, hm⟩
    · exact h
    · refine Memory.wf_cons.2 ⟨hv, ?_, h⟩
      simp only [List.all_cons, Bool.and_eq_true, decide_eq_true_eq]
      exact ⟨by omega, List.all_eq_true.2 fun c hc => by
        have := List.all_eq_true.1 hlt c hc
        simp only [decide_eq_true_eq] at this ⊢
        omega⟩

/-- A canonical buffer that reads 0 everywhere lists nothing. -/
theorem Memory.eq_nil_of_read_zero {m : Memory} (h : Memory.wf m = true)
    (hz : ∀ i, Memory.read m i = 0#8) : m = [] := by
  cases m with
  | nil => rfl
  | cons c m =>
    obtain ⟨a, b⟩ := c
    exact absurd (by simpa [Memory.read] using hz a) (Memory.wf_cons.1 h).1

/-- Canonical buffers that read alike are equal. -/
theorem Memory.ext_read {m n : Memory} (hm : Memory.wf m = true) (hn : Memory.wf n = true)
    (h : ∀ i, Memory.read m i = Memory.read n i) : m = n := by
  induction m generalizing n with
  | nil => exact (Memory.eq_nil_of_read_zero hn fun i => (h i).symm).symm
  | cons c m ih =>
    obtain ⟨a, b⟩ := c
    obtain ⟨hb, ha, hm'⟩ := Memory.wf_cons.1 hm
    cases n with
    | nil => exact absurd (by simpa [Memory.read] using h a) hb
    | cons d n =>
      obtain ⟨a', b'⟩ := d
      obtain ⟨hb', ha', hn'⟩ := Memory.wf_cons.1 hn
      have haa : a = a' := by
        rcases Nat.lt_trichotomy a a' with hlt | heq | hlt
        · refine absurd ?_ hb
          have := h a
          rwa [Memory.read, if_pos rfl, Memory.read, if_neg (by omega),
            Memory.read_of_lt ha' (by omega)] at this
        · exact heq
        · refine absurd ?_ hb'
          have := (h a').symm
          rwa [Memory.read, if_pos rfl, Memory.read, if_neg (by omega),
            Memory.read_of_lt ha (by omega)] at this
      subst haa
      have hbb : b = b' := by simpa [Memory.read] using h a
      subst hbb
      rw [ih hm' hn' fun i => by
        by_cases hi : a = i
        · rw [Memory.read_of_lt ha (by omega), Memory.read_of_lt ha' (by omega)]
        · simpa [Memory.read, hi] using h i]

/-- A store in range writes; one out of range faults. -/
theorem storeByte_of_lt {P : Params} {m : Memory} {i : Nat} {v : Byte} (h : i < P.bufN) :
    storeByte P m i v = .ok (Memory.write m i v) := if_pos h

theorem storeByte_eq_ok {P : Params} {m m' : Memory} {i : Nat} {v : Byte}
    (h : storeByte P m i v = .ok m') : i < P.bufN ∧ m' = Memory.write m i v := by
  unfold storeByte at h
  split at h
  · cases h; exact ⟨‹_›, rfl⟩
  · cases h

theorem readBytes_of_le {P : Params} {m : Memory} {n : Nat} (h : n ≤ P.bufN) :
    readBytes P m n = .ok ((List.range n).map (Memory.read m)) := if_pos h

theorem readBytes_eq_ok {P : Params} {m : Memory} {n : Nat} {bs : List Byte}
    (h : readBytes P m n = .ok bs) : n ≤ P.bufN ∧ bs = (List.range n).map (Memory.read m) := by
  unfold readBytes at h
  split at h
  · cases h; exact ⟨‹_›, rfl⟩
  · cases h

/-- The reset buffer has the canonical form. -/
theorem reset_buf_wf : Memory.wf State.reset.regs.buf = true := rfl

end Sys2Proof.Machine
end

