-- ==== Sys2Proof/Laws/Ops.lean ====
section
/-! SUPPORT. What the shared operations can do, said once: `operate`, `operateReset`, `fetch`, and the
nine cases of `stepBit` (41_synchronizer.md R75). -/

namespace Sys2Proof.Machine

variable {s t : State} {f : Regs → StepResult} {r r' : Regs} {o : StepOutcome} {P : Params} {c : Cfg}

/-- An operation that completes commits what its effect gives. -/
theorem operate_of_ready (h : s.ready) (hf : f s.regs = .ok (r, o)) : operate s f = .next (s.commit r o) := by
  simp [operate, h.1, h.2, hf]

/-- If an operation answers a next state, it was ready and its effect gave that state. -/
theorem operate_eq_next (h : operate s f = .next t) :
    s.ready ∧ ∃ r o, f s.regs = .ok (r, o) ∧ t = s.commit r o := by
  unfold operate at h
  split at h
  · split at h
    · split at h
      · rename_i hc hr _ r o hf
        cases h
        exact ⟨⟨hc, hr⟩, r, o, hf, rfl⟩
      · cases h
    · cases h
  · cases h

/-- If an operation faults, its effect does. -/
theorem operate_eq_fault {e : Fault} (h : operate s f = .fault e) : s.ready ∧ f s.regs = .error e := by
  unfold operate at h
  split at h
  · split at h
    · split at h
      · cases h
      · rename_i hc hr _ e' hf
        cases h
        exact ⟨⟨hc, hr⟩, hf⟩
    · cases h
  · cases h

theorem operateReset_eq_next (h : operateReset s = .next t) :
    cfgOk s.par s.cfg = true ∧ t = { s.commit Regs.reset .none with resetDone := true } := by
  unfold operateReset at h
  split at h
  · cases h; exact ⟨‹_›, rfl⟩
  · cases h

theorem fetch_cons {w : InWord} {ws : List InWord} {i : Instr} (h : s.input = w :: ws)
    (hd : decode s.par w = .ok i) : fetch s = .ok (i, { s with input := ws }) := by
  simp [fetch, h, hd]

/-- If a word is fetched, it was the head of the stream and decoded. -/
theorem fetch_eq_ok {i : Instr} (h : fetch s = .ok (i, t)) :
    ∃ w ws, s.input = w :: ws ∧ decode s.par w = .ok i ∧ t = { s with input := ws } := by
  unfold fetch at h
  split at h
  · cases h
  · rename_i w ws hw
    split at h
    · rename_i j hj
      cases h
      exact ⟨w, ws, hw, hj, rfl⟩
    · cases h

theorem stepBit_invalid : stepBit P c .invalid r = .ok (raise .invalidSymbol r) := rfl

theorem stepBit_one_seek (h : r.st = .seek) : stepBit P c .one r = .ok (countOne P r, .none) := by
  simp [stepBit, h]

theorem stepBit_zero_seek (h : r.st = .seek) : stepBit P c .zero r = .ok (zeroInSeek c r, .none) := by
  simp [stepBit, h]

theorem stepBit_one_data (h : r.st = .data) : stepBit P c .one r = shiftIn P true r := by
  simp [stepBit, h]

theorem stepBit_zero_data (h : r.st = .data) : stepBit P c .zero r = shiftIn P false r := by
  simp [stepBit, h]

theorem stepBit_one_stop (h : r.st = .stop) : stepBit P c .one r = oneSeparator P r := by
  simp [stepBit, h]

theorem stepBit_zero_stop (h : r.st = .stop) : stepBit P c .zero r = .ok (zeroSeparator c r) := by
  simp [stepBit, h]

/-- The eighth bit of a byte, when the buffer has the cell. -/
theorem completeByte_of_lt {v : Bool} (h : r.nbytes < P.bufN) : completeByte P v r =
    .ok ({ r with
      buf := Memory.write r.buf r.nbytes (shifted r.sreg v),
      xacc := r.xacc ^^^ shifted r.sreg v,
      nbytes := r.nbytes + 1,
      sreg := 0#8,
      bitcnt := 0#3,
      st := .stop }, .none) := by
  simp [completeByte, storeByte_of_lt h]

theorem completeByte_eq_ok {v : Bool} (h : completeByte P v r = .ok (r', o)) : r.nbytes < P.bufN ∧ o = .none ∧
    r' = { r with
      buf := Memory.write r.buf r.nbytes (shifted r.sreg v),
      xacc := r.xacc ^^^ shifted r.sreg v,
      nbytes := r.nbytes + 1,
      sreg := 0#8,
      bitcnt := 0#3,
      st := .stop } := by
  unfold completeByte at h
  split at h
  · rename_i m hm
    cases h
    obtain ⟨hlt, rfl⟩ := storeByte_eq_ok hm
    exact ⟨hlt, rfl, rfl⟩
  · cases h

/-- What a data bit can do: shift, or complete the byte. -/
theorem shiftIn_eq_ok {v : Bool} (h : shiftIn P v r = .ok (r', o)) :
    (r.bitcnt < 7 ∧ r' = shiftBit v r ∧ o = .none) ∨
    (r.bitcnt = 7 ∧ completeByte P v r = .ok (r', o)) := by
  unfold shiftIn at h
  split at h
  · cases h; exact .inl ⟨‹_›, rfl, rfl⟩
  · exact .inr ⟨by bv_omega, h⟩

theorem complete_of_le (h : r.nbytes ≤ P.bufN) : complete P r =
    .ok (Regs.reset, .emit ⟨r.pktPre, r.nbytes, (List.range r.nbytes).map (Memory.read r.buf)⟩ (validate r)) := by
  simp [complete, readBytes_of_le h, emit]

theorem complete_eq_ok (h : complete P r = .ok (r', o)) : r.nbytes ≤ P.bufN ∧ r' = Regs.reset ∧
    o = .emit ⟨r.pktPre, r.nbytes, (List.range r.nbytes).map (Memory.read r.buf)⟩ (validate r) := by
  unfold complete at h
  split at h
  · rename_i bs hb
    cases h
    obtain ⟨hle, rfl⟩ := readBytes_eq_ok hb
    exact ⟨hle, rfl, rfl⟩
  · cases h

/-- What a `One` separator can do: complete the packet, or violate the framing. -/
theorem oneSeparator_eq_ok (h : oneSeparator P r = .ok (r', o)) :
    (3 ≤ r.nbytes ∧ complete P r = .ok (r', o)) ∨
    (r.nbytes < 3 ∧ r' = Regs.reset ∧ o = .abort .framingViolation (inFrame r)) := by
  unfold oneSeparator Config.minBytes at h
  split at h
  · exact .inl ⟨‹_›, h⟩
  · cases h; exact .inr ⟨by omega, rfl, rfl⟩

/-- Everything one classified bit can do, when it answers (R75). -/
theorem stepBit_eq_ok {b : Bit} (h : stepBit P c b r = .ok (r', o)) :
    (b = .invalid ∧ r' = Regs.reset ∧ o = .abort .invalidSymbol (inFrame r)) ∨
    (b = .one ∧ r.st = .seek ∧ r' = countOne P r ∧ o = .none) ∨
    (b = .zero ∧ r.st = .seek ∧ r' = zeroInSeek c r ∧ o = .none) ∨
    (∃ v, b = (if v then .one else .zero) ∧ r.st = .data ∧ shiftIn P v r = .ok (r', o)) ∨
    (b = .zero ∧ r.st = .stop ∧ (r', o) = zeroSeparator c r) ∨
    (b = .one ∧ r.st = .stop ∧ oneSeparator P r = .ok (r', o)) := by
  cases b with
  | invalid => cases h; exact .inl ⟨rfl, rfl, rfl⟩
  | one =>
    rcases hst : r.st with _ | _ | _
    · rw [stepBit_one_seek hst] at h
      cases h; simp
    · rw [stepBit_one_data hst] at h
      exact .inr (.inr (.inr (.inl ⟨true, rfl, rfl, h⟩)))
    · rw [stepBit_one_stop hst] at h
      simp [h]
  | zero =>
    rcases hst : r.st with _ | _ | _
    · rw [stepBit_zero_seek hst] at h
      cases h; simp
    · rw [stepBit_zero_data hst] at h
      exact .inr (.inr (.inr (.inl ⟨false, rfl, rfl, h⟩)))
    · rw [stepBit_zero_stop hst] at h
      simp [← Except.ok.inj h]

end Sys2Proof.Machine
end

