-- ==== Sys2Proof/Laws/Exec.lean ====
section
/-! SUPPORT. What `exec` and `step` can do, said once: every operation that carries a bit is `operate` over
`stepBit`; the inversions of `exec` and `step`. -/

namespace Sys2Proof.Machine

variable {s t : State} {i : Instr} {b : Bit}

/-- An operation whose bit is `b` runs `StepBit` on `b` (R62, R73). -/
theorem exec_of_bitOf (h : bitOf s.cfg i = some b) : exec i s = operate s (stepBit s.par s.cfg b) := by
  cases i <;> simp only [bitOf, Option.some.injEq, reduceCtorEq] at h <;> subst h <;> rfl

theorem exec_rst_eq (s : State) : exec .rst s = operateReset s := rfl
theorem exec_idle_eq (s : State) : exec .idle s = operate s fun _ => .ok (Regs.reset, .none) := rfl
theorem exec_nop_eq (s : State) : exec .nop s = operate s fun r => .ok (r, .none) := rfl

/-- An operation with a bit completes with what `StepBit` gives. -/
theorem exec_of_stepBit {r : Regs} {o : StepOutcome} (hr : s.ready) (hb : bitOf s.cfg i = some b)
    (hs : stepBit s.par s.cfg b s.regs = .ok (r, o)) : exec i s = .next (s.after r o) := by
  rw [exec_of_bitOf hb]
  exact operate_of_ready hr hs

/-- Everything an operation can do, when it answers a next state. -/
theorem exec_eq_next (h : exec i s = .next t) :
    (i = .rst ∧ cfgOk s.par s.cfg = true ∧ t = { s.after Regs.reset .none with resetDone := true }) ∨
    (i = .idle ∧ s.ready ∧ t = s.after Regs.reset .none) ∨
    (i = .nop ∧ s.ready ∧ t = s.after s.regs .none) ∨
    ∃ b r o, bitOf s.cfg i = some b ∧ s.ready ∧ stepBit s.par s.cfg b s.regs = .ok (r, o) ∧
      t = s.after r o := by
  cases hb : bitOf s.cfg i with
  | some b =>
    rw [exec_of_bitOf hb] at h
    obtain ⟨hr, r, o, hs, rfl⟩ := operate_eq_next h
    exact .inr (.inr (.inr ⟨b, r, o, rfl, hr, hs, rfl⟩))
  | none =>
    cases i with
    | rst =>
      rw [exec_rst_eq] at h
      obtain ⟨hc, rfl⟩ := operateReset_eq_next h
      exact .inl ⟨rfl, hc, rfl⟩
    | idle =>
      rw [exec_idle_eq] at h
      obtain ⟨hr, r, o, hs, rfl⟩ := operate_eq_next h
      cases hs
      exact .inr (.inl ⟨rfl, hr, rfl⟩)
    | nop =>
      rw [exec_nop_eq] at h
      obtain ⟨hr, r, o, hs, rfl⟩ := operate_eq_next h
      cases hs
      exact .inr (.inr (.inl ⟨rfl, hr, rfl⟩))
    | sym dH dL => cases hb
    | b0 => cases hb
    | b1 => cases hb
    | bx => cases hb
    | bxRsv => cases hb

/-- Everything a step can do, when it answers a next state: it took the next word, which decoded, and ran
the operation. -/
theorem step_eq_next (h : step s = .next t) :
    ∃ w ws i, s.input = w :: ws ∧ decode s.par w = .ok i ∧ exec i { s with input := ws } = .next t := by
  unfold step at h
  split at h
  · rename_i i s' hf
    obtain ⟨w, ws, hi, hd, rfl⟩ := fetch_eq_ok hf
    exact ⟨w, ws, i, hi, hd, h⟩
  · cases h

/-- A data bit of value `v` in `DATA` is `ShiftIn(v)` (R87). -/
theorem stepBit_data {P : Params} {c : Cfg} {r : Regs} (v : Bool) (h : r.st = .data) :
    stepBit P c (if v then .one else .zero) r = shiftIn P v r := by
  cases v
  · exact stepBit_zero_data h
  · exact stepBit_one_data h

/-- The exclusive or of two lists joined. -/
theorem xorBytes_append (as bs : List Byte) : xorBytes (as ++ bs) = xorBytes as ^^^ xorBytes bs := by
  induction as with
  | nil => simp [xorBytes]
  | cons a as ih => simp [xorBytes, ih, BitVec.xor_assoc]

/-- A run over two lists joined is the run over the second after the first. -/
theorem runOps_append (is js : List Instr) (s : State) : runOps (is ++ js) s =
    match runOps is s with
    | .next t => runOps js t
    | .fault e => .fault e
    | .refused e => .refused e := by
  induction is generalizing s with
  | nil => rfl
  | cons i is ih =>
    simp only [List.cons_append, runOps]
    cases exec i s with
    | next t => exact ih t
    | fault e => rfl
    | refused e => rfl

end Sys2Proof.Machine
end

