-- ==== Sys2Proof/Laws/PerInstr.lean ====
section
/-! SUPPORT. Per-operation families about the syntax. `EncodeFits`: the canonical word of a well-formed
operation fits its interface (30_encoding.md R52, R54). -/

namespace Sys2Proof.Laws.EncodeFits

/-- The family's statement for one operation. -/
def Statement (i : Instr) : Prop :=
  ∀ P : Params, i.wellFormed P = true → (encode P i).wellFormed P = true

theorem port_lt (P : Params) {k : Nat} (hk : k < 3 + 2 * P.durW) : 2 ^ k < 2 ^ P.portW :=
  Nat.pow_lt_pow_right (by decide) hk

theorem rst : Statement .rst := fun P _ => by
  simpa [encode, InWord.wellFormed] using port_lt P (by omega)

theorem idle : Statement .idle := fun P _ => by
  simpa [encode, InWord.wellFormed] using port_lt P (by omega)

theorem sym (dH dL : Nat) : Statement (.sym dH dL) := fun P h => by
  simp only [Instr.wellFormed, Bool.and_eq_true, decide_eq_true_eq] at h
  refine decide_eq_true (?_ : 2 ^ (2 * P.durW) + dH * 2 ^ P.durW + dL < 2 ^ (3 + 2 * P.durW))
  have h2 : (2 : Nat) ^ (2 * P.durW) = 2 ^ P.durW * 2 ^ P.durW := by rw [← pow_add]; congr 1; omega
  have h3 : (2 : Nat) ^ (3 + 2 * P.durW) = 8 * (2 ^ P.durW * 2 ^ P.durW) := by rw [pow_add, h2]; norm_num
  rw [h2, h3]
  nlinarith [h.1, h.2, Nat.mul_le_mul_right (2 ^ P.durW) (Nat.succ_le_of_lt h.1)]

theorem nop : Statement .nop := fun P _ => by
  simp [encode, InWord.wellFormed]

theorem b0 : Statement .b0 := fun _ _ => rfl
theorem b1 : Statement .b1 := fun _ _ => rfl
theorem bx : Statement .bx := fun _ _ => rfl
theorem bxRsv : Statement .bxRsv := fun _ _ => rfl

end Sys2Proof.Laws.EncodeFits
end

