-- ==== Sys2Proof/Laws/System.lean ====
section
/-! SUPPORT. What a step of a system of decoders can do, said once. -/

namespace Sys2Proof.Machine

variable {k : Nat} {ls ls' : Lines} {s : State}

/-- The step of a line that is there is its decoder's step, put back in its place. -/
theorem linesStep_of_line (h : ls[k]? = some s) : Lines.step k ls =
    match Machine.step s with
    | .next t => .next (ls.set k t)
    | .fault e => .fault e
    | .refused e => .refused e := by
  cases hs : Machine.step s <;> simp only [Lines.step, h, hs]

/-- Everything a step of a system can do, when it answers a next state. -/
theorem linesStep_eq_next (h : Lines.step k ls = .next ls') :
    (∃ s t, ls[k]? = some s ∧ Machine.step s = .next t ∧ ls' = ls.set k t) ∨
    (ls[k]? = none ∧ ls' = ls) := by
  cases hk : ls[k]? with
  | some s =>
    rw [linesStep_of_line hk] at h
    cases hs : Machine.step s with
    | next t => rw [hs] at h; cases h; exact .inl ⟨s, t, rfl, hs, rfl⟩
    | fault e => rw [hs] at h; cases h
    | refused e => rw [hs] at h; cases h
  | none =>
    simp only [Lines.step, hk] at h
    cases h
    exact .inr ⟨rfl, rfl⟩

end Sys2Proof.Machine
end

