-- ==== Sys2Proof/Tests/Slice0.lean ====
section
/-! SUPPORT. Tests with expected results from spec/95_test_vectors.md (the vector is named), the
well-formedness smoke tests, the decoding of words written out from 30_encoding.md, and for every
obligation with hypotheses a witness that meets them. -/

namespace Sys2Proof.Tests

open Sys2Proof.Machine

/-- The default machine with the given registers. -/
def at' (r : Regs) : State := { State.reset with regs := r }

/-- A position in a frame: bytes `0x03, 0x3F` done (the state of vectors T1, T2, T11, T15). -/
def twoBytes : Regs :=
  { Regs.reset with st := .stop, pktPre := 10, nbytes := 2, xacc := 0x3C#8, buf := [(0, 0x03#8), (1, 0x3F#8)] }

/-- The mid-byte state of vector V22b. -/
def midByte : Regs :=
  { Regs.reset with
    st := .data
    pktPre := 10
    sreg := 0x06#8
    bitcnt := 3#3
    nbytes := 1
    xacc := 0xA5#8
    buf := [(0, 0xA5#8)] }

/-- The state before the end bit of vector T14. -/
def badChecksum : Regs :=
  { Regs.reset with
    st := .stop
    pktPre := 10
    nbytes := 3
    xacc := 0x01#8
    buf := [(0, 0x03#8), (1, 0x3F#8), (2, 0x3D#8)] }

/-- The full buffer of vector T12. -/
def full : Regs :=
  { Regs.reset with
    st := .stop
    pktPre := 10
    nbytes := 8
    buf := [(0, 1#8), (1, 2#8), (2, 3#8), (3, 4#8), (4, 5#8), (5, 6#8), (6, 7#8)] }

/-- The last bit of the data byte of vector T10. -/
def lastBit : Regs :=
  { Regs.reset with
    st := .data
    pktPre := 10
    sreg := 0x1F#8
    bitcnt := 7#3
    nbytes := 1
    xacc := 0x03#8
    buf := [(0, 0x03#8)] }

/-! ### Well-formedness smoke (R61, R52, R54) -/

theorem test_sym_dH_too_wide : (Instr.sym 65536 58).wellFormed Params.default = false := by decide
theorem test_sym_dL_too_wide : (Instr.sym 58 65536).wellFormed Params.default = false := by decide
theorem test_sym_widest_fits : (Instr.sym 65535 65535).wellFormed Params.default = true := by decide
theorem test_port_too_wide : (InWord.port 0x800000000).wellFormed Params.default = false := by decide
theorem test_bit_too_wide : (InWord.bit 4).wellFormed Params.default = false := by decide
theorem test_port_too_wide_refused :
    decode Params.default (.port 0x800000000) = .error .portWordTooWide := rfl
theorem test_bit_too_wide_refused : decode Params.default (.bit 4) = .error .bitCodeTooWide := rfl

/-! ### Decoding: words from the patterns of R53 and R54 and from vectors V50 to V58 -/

theorem test_decode_nop_ignores_durations :
    decodeTableWord 40 0b00011111111111111111111111111111111 = some .nop := by decide
theorem test_decode_idle_wins_over_symbol :
    decodeTableWord 40 0b01100000000001110100000000000111010 = some .idle := by decide
theorem test_decode_rst_wins : decodeTableWord 40 0b11111111111111111111111111111111111 = some .rst := by decide
theorem test_decode_sym : decodeTableWord 40 0b00100000000001101100000000000111110 = some (.sym 54 62) := by decide
theorem test_decode_b0 : decodeTableWord 8 0b00 = some .b0 := by decide
theorem test_decode_b1 : decodeTableWord 8 0b01 = some .b1 := by decide
theorem test_decode_bx : decodeTableWord 8 0b10 = some .bx := by decide
theorem test_decode_bxRsv : decodeTableWord 8 0b11 = some .bxRsv := by decide
theorem test_encode_sym : encode Params.default (.sym 58 58) = .port 0x1003A003A := by decide

/-! ### One step each -/

/-- Vector T1, from a decoder never reset (P1's start). -/
theorem test_rst_from_power_on : exec .rst { at' twoBytes with resetDone := false } =
    .next ((at' twoBytes).after Regs.reset .none) := rfl

/-- Vector T2. -/
theorem test_idle : exec .idle (at' twoBytes) = .next ((at' twoBytes).after Regs.reset .none) := rfl

/-- Vector T3. -/
theorem test_nop : exec .nop (at' twoBytes) = .next ((at' twoBytes).after twoBytes .none) := rfl

/-- Vector V1. -/
theorem test_sym_one : exec (.sym 58 58) State.reset =
    .next (State.reset.after { Regs.reset with pcount := 1 } .none) := rfl

/-- Vector V4: the edge of the band is outside. -/
theorem test_sym_edge : exec (.sym 53 58) State.reset =
    .next (State.reset.after Regs.reset (.abort .invalidSymbol false)) := rfl

/-- Vector T7. -/
theorem test_b0_start_bit : exec .b0 (at' { Regs.reset with pcount := 10 }) =
    .next ((at' { Regs.reset with pcount := 10 }).after { Regs.reset with st := .data, pktPre := 10 } .none) := rfl

/-- Vector T12. -/
theorem test_b0_at_ceiling : exec .b0 (at' full) =
    .next ((at' full).after Regs.reset (.abort .byteCeilingExceeded true)) := rfl

/-- Vector T10. -/
theorem test_b1_completes_byte : exec .b1 (at' lastBit) = .next ((at' lastBit).after twoBytes .none) := rfl

/-- Vector T14. -/
theorem test_b1_mismatch : exec .b1 (at' badChecksum) =
    .next ((at' badChecksum).after Regs.reset
      (.emit ⟨10, 3, [0x03#8, 0x3F#8, 0x3D#8]⟩ .checksumMismatch)) := rfl

/-- Vector V22b. -/
theorem test_bx_in_frame : exec .bx (at' midByte) =
    .next ((at' midByte).after Regs.reset (.abort .invalidSymbol true)) := rfl

/-- Vector V22b, by the reserved code (R55). -/
theorem test_bxRsv_in_frame : exec .bxRsv (at' midByte) =
    .next ((at' midByte).after Regs.reset (.abort .invalidSymbol true)) := rfl

/-- Vector V57 through `step`: the word is taken from the stream and runs. -/
theorem test_step_symbol : step ((at' midByte).withFetchWord 40 0x100640064) =
    .next ((at' midByte).after { midByte with sreg := 0x0C#8, bitcnt := 4#3 } .none) := rfl

/-! ### Witnesses of hypotheses, one or more an obligation -/

theorem witness_RstReachesResetStateFromAny :
    0x7FFFFFFFF < 2 ^ Params.default.portW ∧
    Nat.testBit 0x7FFFFFFFF (2 * Params.default.durW + 2) = true ∧
    cfgOk State.reset.par State.reset.cfg = true := by decide

theorem witness_IdleEmptiesSilently :
    0x3003A003A < 2 ^ Params.default.portW ∧
    Nat.testBit 0x3003A003A (2 * Params.default.durW + 2) = false ∧
    Nat.testBit 0x3003A003A (2 * Params.default.durW + 1) = true ∧ (at' twoBytes).ready := by decide

theorem witness_NopsChangeNothing :
    0x0FFFFFFFF < 2 ^ Params.default.portW ∧
    Nat.testBit 0x0FFFFFFFF (2 * Params.default.durW + 2) = false ∧
    Nat.testBit 0x0FFFFFFFF (2 * Params.default.durW + 1) = false ∧
    Nat.testBit 0x0FFFFFFFF (2 * Params.default.durW) = false ∧ (at' midByte).ready := by decide

theorem witness_PortWordPriorityDecode : 0x7FFFFFFFF < 2 ^ Params.default.portW := by decide

theorem witness_DecodeEncodeRoundTrip : (Instr.sym 65535 0).wellFormed Params.default = true := by decide

theorem witness_NoPresentableWordIsIllegal : decode Params.default (.port 0x7FFFFFFFF) = .ok .rst := rfl

/-- One word for each clause: only `rst`, only `idle`, only `sym_valid`. -/
theorem witness_OneStrobeWordsNeedNoPriority :
    oneStrobe Params.default 0x400000000 = true ∧ oneStrobe Params.default 0x200000000 = true ∧
    oneStrobe Params.default 0x1FFFFFFFF = true ∧ oneStrobe Params.default 0x300000000 = false ∧
    0x400000000 < 2 ^ Params.default.portW := by decide

theorem witness_CapturedCellIsPresentable :
    (65535 < 2 ^ Params.default.durW ∧ 0 < 2 ^ Params.default.durW) ∧
    Cfg.default.zeroHigh + Cfg.default.margin ≤ 2 ^ Params.default.durW - 1 ∧
    Cfg.default.zeroLow + Cfg.default.margin ≤ 2 ^ Params.default.durW - 1 ∧
    Cfg.default.oneHigh + Cfg.default.margin ≤ 2 ^ Params.default.durW - 1 ∧
    Cfg.default.oneLow + Cfg.default.margin ≤ 2 ^ Params.default.durW - 1 ∧
    (2 ^ Params.default.durW ≤ 65536 ∨ 2 ^ Params.default.durW ≤ 58) := by decide

/-- The margins 0, 1 and one above the nominal value. -/
theorem witness_BandIsOpenInterval :
    inBand 58 58 0 = false ∧ inBand 58 58 1 = true ∧ inBand 0 3 5 = true ∧ inBand 8 3 5 = false := by decide

theorem witness_BandTestInUnsignedWords : 65535 < 2 ^ 16 ∧ 0 < 2 ^ 16 := by decide

theorem witness_ValidBandsAreExclusive : cfgOk Params.default Cfg.default = true := by decide

theorem witness_SymbolActsAsItsBit :
    65535 < 2 ^ Params.default.durW ∧ (at' twoBytes).ready ∧ classify Cfg.default 80 80 = .invalid := by decide

/-- Below the counter's maximum and at it, by the bit and by a symbol. -/
theorem witness_OneExtendsPreamble :
    (at' { Regs.reset with pcount := 254 }).ready ∧ (at' { Regs.reset with pcount := 255 }).ready ∧
    bitOf Cfg.default .b1 = some .one ∧ bitOf Cfg.default (.sym 62 54) = some .one ∧
    (at' { Regs.reset with pcount := 255 }).regs.st = .seek := by decide

theorem witness_StartBitOpensFrame :
    (at' { Regs.reset with pcount := 10 }).ready ∧ bitOf Cfg.default .b0 = some .zero ∧
    bitOf Cfg.default (.sym 96 104) = some .zero ∧
    (at' { Regs.reset with pcount := 10 }).regs.st = .seek ∧
    (at' { Regs.reset with pcount := 10 }).cfg.minPreambleBits ≤
      (at' { Regs.reset with pcount := 10 }).regs.pcount := by decide

theorem witness_ShortPreambleIsCleared :
    (at' { Regs.reset with pcount := 9 }).ready ∧ bitOf Cfg.default .b0 = some .zero ∧
    (at' { Regs.reset with pcount := 9 }).regs.st = .seek ∧
    (at' { Regs.reset with pcount := 9 }).regs.pcount <
      (at' { Regs.reset with pcount := 9 }).cfg.minPreambleBits := by decide

theorem witness_InvalidBitAbortsAnywhere :
    (at' full).ready ∧ bitOf Cfg.default .bx = some .invalid ∧ bitOf Cfg.default .bxRsv = some .invalid ∧
    bitOf Cfg.default (.sym 63 58) = some .invalid := by decide

/-- Both arms: the seventh bit, and the eighth with the last cell of the buffer free. -/
theorem witness_DataBitsAssembleBytes :
    (at' { midByte with bitcnt := 6#3 }).ready ∧ bitOf Cfg.default .b0 = some (if false then .one else .zero) ∧
    midByte.st = .data ∧ { midByte with bitcnt := 6#3 }.bitcnt < 7 ∧ lastBit.st = .data ∧
    lastBit.bitcnt = 7 ∧ { lastBit with nbytes := 7 }.nbytes < Params.default.bufN := by decide

theorem witness_ZeroSeparatorOpensNextByte :
    (at' { full with nbytes := 7 }).ready ∧ bitOf Cfg.default .b0 = some .zero ∧ full.st = .stop ∧
    { full with nbytes := 7 }.nbytes < Cfg.default.maxBytes := by decide

theorem witness_ZeroSeparatorAtCeilingAborts :
    (at' full).ready ∧ full.st = .stop ∧ full.nbytes = Cfg.default.maxBytes ∧
    bitOf Cfg.default .b0 = some .zero ∧ bitOf Cfg.default .b1 = some .one := by decide

/-- Three bytes and a full buffer. -/
theorem witness_EndBitEmitsPacket :
    (at' badChecksum).ready ∧ bitOf Cfg.default .b1 = some .one ∧ badChecksum.st = .stop ∧
    3 ≤ badChecksum.nbytes ∧ full.st = .stop ∧ full.nbytes ≤ Params.default.bufN := by decide

theorem witness_EarlyOneViolatesFraming :
    (at' twoBytes).ready ∧ bitOf Cfg.default .b1 = some .one ∧ twoBytes.st = .stop ∧ twoBytes.nbytes < 3 := by
  decide

/-- The state of vector T10 meets the invariant. -/
theorem witness_invariant_data : RegsInv Params.default Cfg.default lastBit where
  pcount_fits := by decide
  pktPre_fits := by decide
  buf_wf := by decide
  seek_empty := fun h => absurd h (by decide)
  inFrame_pre := by decide
  data_room := by decide
  stop_full := by decide
  sreg_small := by decide
  xacc_eq := by decide
  buf_zero := fun i (hi : 1 ≤ i) => by simp [lastBit, Memory.read]; omega
  nbytes_le := by decide

/-- The state of vector T14 meets the invariant. -/
theorem witness_invariant_stop : RegsInv Params.default Cfg.default badChecksum where
  pcount_fits := by decide
  pktPre_fits := by decide
  buf_wf := by decide
  seek_empty := fun h => absurd h (by decide)
  inFrame_pre := by decide
  data_room := by decide
  stop_full := by decide
  sreg_small := by decide
  xacc_eq := by decide
  buf_zero := fun i (hi : 3 ≤ i) => by
    change Memory.read [(0, 0x03#8), (1, 0x3F#8), (2, 0x3D#8)] i = 0#8
    rw [Memory.read, if_neg (by omega), Memory.read, if_neg (by omega), Memory.read, if_neg (by omega),
      Memory.read_nil]
  nbytes_le := by decide

theorem witness_AccumulatorTestIsChecksumComparison :
    RegsInv Params.default Cfg.default badChecksum ∧ 1 ≤ badChecksum.nbytes :=
  ⟨witness_invariant_stop, by decide⟩

theorem inv_lastBit : (at' lastBit).Inv := ⟨by decide, fun _ => witness_invariant_data⟩
theorem inv_badChecksum : (at' badChecksum).Inv := ⟨by decide, fun _ => witness_invariant_stop⟩

theorem witness_OnlyEndBitEmits : exec .b1 (at' badChecksum) =
    .next ((at' badChecksum).after Regs.reset (.emit ⟨10, 3, [0x03#8, 0x3F#8, 0x3D#8]⟩ .checksumMismatch)) :=
  test_b1_mismatch

theorem witness_TransitionTableIsTheMachine :
    (at' lastBit).Inv ∧ (at' lastBit).resetDone = true ∧ bitOf (at' lastBit).cfg (.sym 58 58) = some .one :=
  ⟨inv_lastBit, rfl, by decide⟩

theorem witness_StepRunsDecodedOperation :
    (State.reset.withFetchWord 40 0x1003A003A).input = .port 0x1003A003A :: [] ∧
    decode State.reset.par (.port 0x1003A003A) = .ok (.sym 58 58) := ⟨rfl, rfl⟩

theorem witness_MachineRunIsOperationRun :
    ∀ i ∈ [Instr.rst, .sym 58 58, .b0, .bxRsv], i.wellFormed State.reset.par = true := by decide

theorem witness_StepKeepsInvariant :
    (((at' lastBit).withFetchWord 8 1).Inv) ∧
    step ((at' lastBit).withFetchWord 8 1) = .next ((at' lastBit).after twoBytes .none) :=
  ⟨⟨inv_lastBit.cfg_ok, inv_lastBit.regs_ok⟩, rfl⟩

theorem witness_EveryPresentableWordHasSuccessor :
    ((at' badChecksum).withFetchWord 40 0x7FFFFFFFF).Inv ∧ (at' badChecksum).resetDone = true ∧
    ((at' badChecksum).withFetchWord 40 0x7FFFFFFFF).input = .port 0x7FFFFFFFF :: [] ∧
    (InWord.port 0x7FFFFFFFF).wellFormed (at' badChecksum).par = true :=
  ⟨⟨inv_badChecksum.cfg_ok, inv_badChecksum.regs_ok⟩, rfl, rfl, by decide⟩

theorem witness_ConfigurationIsImmutable : step ((at' midByte).withFetchWord 40 0x100640064) =
    .next ((at' midByte).after { midByte with sreg := 0x0C#8, bitcnt := 4#3 } .none) := test_step_symbol

theorem witness_OneWordOneOutcomePerStep : step ((at' midByte).withFetchWord 8 3) =
    .next ((at' midByte).after Regs.reset (.abort .invalidSymbol true)) := rfl

theorem witness_AbortLeavesResetState : exec .b0 (at' full) =
    .next ((at' full).after Regs.reset (.abort .byteCeilingExceeded true)) := test_b0_at_ceiling

/-- Vector V27: the bands would touch. -/
theorem witness_InvalidConfigurationRefused :
    cfgOk Params.default { Cfg.default with zeroHigh := 68, zeroLow := 68 } = false := by decide

theorem witness_RefusedBeforeFirstReset :
    cfgOk State.reset.par State.reset.cfg = true ∧
    { State.reset with resetDone := false }.resetDone = false ∧ Instr.nop ≠ .rst := by decide

theorem witness_EndOfInputEndsRun : State.reset.input = [] := rfl

/-- The count one short of the minimum, at it, and in a frame. -/
theorem witness_SyncStateViewOfSource :
    { Regs.reset with pcount := 9 }.pcount < Cfg.default.minPreambleBits ∧
    Cfg.default.minPreambleBits ≤ { Regs.reset with pcount := 10 }.pcount ∧ Regs.reset.st = .seek ∧
    (twoBytes.st = .data ∨ twoBytes.st = .stop) ∧ cfgOk Params.default Cfg.default = true := by decide

theorem witness_CompletedByteStoreFrame :
    (at' lastBit).Inv ∧ bitOf (at' lastBit).cfg .b1 = some (if true then .one else .zero) ∧
    (at' lastBit).regs.st = .data ∧ (at' lastBit).regs.bitcnt = 7 ∧
    exec .b1 (at' lastBit) = .next ((at' lastBit).after twoBytes .none) :=
  ⟨inv_lastBit, rfl, rfl, rfl, test_b1_completes_byte⟩

theorem witness_NonStoringFrame :
    exec .b0 (at' twoBytes) = .next ((at' twoBytes).after { twoBytes with st := .data } .none) ∧
    Instr.b0 ≠ .rst ∧ Instr.b0 ≠ .idle ∧
    ¬ (twoBytes.st = .data ∧ twoBytes.bitcnt = 7 ∧ Instr.b0 ≠ .nop) :=
  ⟨rfl, by decide, by decide, by decide⟩

/-- A driven byte of the packet and one beyond it. -/
theorem witness_OutputPinsShowOutcome :
    2 < Params.default.bufN ∧ 2 < (⟨10, 3, [1#8, 2#8, 3#8]⟩ : Packet).n ∧ 7 < Params.default.bufN ∧
    (⟨10, 3, [1#8, 2#8, 3#8]⟩ : Packet).n ≤ 7 := by decide

theorem witness_EmittedPacketFitsPins :
    ((at' badChecksum).withFetchWord 8 1).Inv ∧
    step ((at' badChecksum).withFetchWord 8 1) = .next ((at' badChecksum).after Regs.reset
      (.emit ⟨10, 3, [0x03#8, 0x3F#8, 0x3D#8]⟩ .checksumMismatch)) :=
  ⟨⟨inv_badChecksum.cfg_ok, inv_badChecksum.regs_ok⟩, rfl⟩

theorem witness_PreambleThreshold : State.reset.ready ∧ State.reset.regs = Regs.reset := by decide

theorem witness_ByteArrivesMostSignificantFirst :
    (at' { lastBit with sreg := 0#8, bitcnt := 0#3, nbytes := 7 }).ready ∧ lastBit.st = .data ∧
    { lastBit with sreg := 0#8, bitcnt := 0#3, nbytes := 7 }.nbytes < Params.default.bufN := by decide

/-- A state for each clause; the first is met by a symbol in no band, within a byte. -/
theorem witness_ResynchronisationForgetsThePast :
    (at' midByte).ready ∧
    exec (.sym 80 80) (at' midByte) = .next ((at' midByte).after Regs.reset (.abort .invalidSymbol true)) ∧
    bitOf Cfg.default (.sym 80 80) = some .invalid ∧
    (at' badChecksum).ready ∧ bitOf Cfg.default .b1 = some .one ∧ badChecksum.st = .stop ∧
    badChecksum.nbytes ≤ Params.default.bufN ∧
    (at' full).ready ∧ bitOf Cfg.default .b0 = some .zero ∧ full.st = .stop ∧
    full.nbytes = Cfg.default.maxBytes :=
  ⟨by decide, rfl, by decide⟩

theorem witness_WellFormedPacketIsEmittedValid :
    State.reset.ready ∧ State.reset.cfg.minPreambleBits ≤ 10 ∧ 1 ≤ [0x3F#8].length ∧
    [0x3F#8].length + 2 ≤ State.reset.cfg.maxBytes ∧
    [2#8, 3#8, 4#8, 5#8, 6#8, 7#8].length + 2 ≤ State.reset.cfg.maxBytes := by decide

theorem witness_FrameVerdictIsExclusiveOr :
    State.reset.ready ∧ State.reset.cfg.minPreambleBits ≤ 12 ∧ 3 ≤ [3#8, 0x3F#8, 0x3D#8].length ∧
    [3#8, 0x3F#8, 0x3D#8].length ≤ State.reset.cfg.maxBytes := by decide

theorem witness_ShortFrameIsFramingViolation :
    State.reset.ready ∧ State.reset.cfg.minPreambleBits ≤ 10 ∧
    ([0x55#8].length = 1 ∨ [0x55#8].length = 2) ∧
    ([0x55#8, 0x55#8].length = 1 ∨ [0x55#8, 0x55#8].length = 2) := by decide

theorem witness_OverlongFrameIsCutAtCeiling :
    State.reset.ready ∧ State.reset.cfg.minPreambleBits ≤ 10 ∧
    State.reset.cfg.maxBytes < (List.replicate 9 0#8).length := by decide

theorem witness_AnySingleByteBitFlipIsReported :
    State.reset.ready ∧ State.reset.cfg.minPreambleBits ≤ 12 ∧ 3 ≤ [3#8, 0x3F#8, 0x3C#8].length ∧
    [3#8, 0x3F#8, 0x3C#8].length ≤ State.reset.cfg.maxBytes ∧ xorBytes [3#8, 0x3F#8, 0x3C#8] = 0#8 ∧
    2 < [3#8, 0x3F#8, 0x3C#8].length := by decide

theorem witness_LiftedProgramsAgree :
    State.reset.cfg.zeroHigh = 100 ∧ State.reset.cfg.zeroLow = 100 ∧ State.reset.cfg.oneHigh = 58 ∧
    State.reset.cfg.oneLow = 58 ∧ State.reset.cfg.margin = 5 := by decide

/-- Two lines, a symbol waiting on the second: it has a next state, the first has no word, the third is not
there. -/
def twoLines : Lines := [State.reset, State.reset.withFetchWord 40 0x1003A003A]

theorem witness_LineStepsAsOneDecoder :
    (∃ ls', Lines.step 1 twoLines = .next ls') ∧ twoLines[0]? = some State.reset ∧
    step State.reset = .refused .noPortWord ∧ twoLines[2]? = none :=
  ⟨⟨_, rfl⟩, rfl, rfl, rfl⟩

/-- The schedule of one step on line 1: it completes, and each line alone completes its share. -/
theorem witness_InterleavedLinesRunAsAlone :
    (∃ ls', Lines.run [1] twoLines = .next ls') ∧
    ∀ (j : Nat) (s : State), twoLines[j]? = some s → ∃ t : State,
      (Host.Core.run Sys2Proof.core ([1].count j) s : Host.Outcome State Fault Refusal) = .next t := by
  refine ⟨⟨_, rfl⟩, fun j s h => ?_⟩
  match j, h with
  | 0, h => cases h; exact ⟨_, rfl⟩
  | 1, h => cases h; exact ⟨_, rfl⟩
  | _ + 2, h => cases h

end Sys2Proof.Tests
end

section
/-! SUPPORT. A configuration that fails `cfg_ok` (10_state.md R36): the clauses over the integers, and the
refusal by every operation. -/

namespace Sys2Proof.Machine

variable {s : State} {i : Instr} {f : Regs → StepResult}

/-- `cfgOk_iff` with clause (a) as the spec writes it, over the integers. -/
theorem cfgOk_iff_int (P : Params) (c : Cfg) : cfgOk P c = true ↔
    (c.oneHigh : Int) + c.margin < (c.zeroHigh : Int) - c.margin ∧
    (1 ≤ c.minPreambleBits ∧ c.minPreambleBits ≤ 2 ^ P.preW - 1) ∧
    (3 ≤ c.maxBytes ∧ c.maxBytes ≤ P.bufN) ∧
    c.zeroHigh < 2 ^ P.durW ∧ c.zeroLow < 2 ^ P.durW ∧ c.oneHigh < 2 ^ P.durW ∧
    c.oneLow < 2 ^ P.durW ∧ c.margin < 2 ^ P.durW := by
  have bands : c.oneHigh + 2 * c.margin < c.zeroHigh ↔
      (c.oneHigh : Int) + c.margin < (c.zeroHigh : Int) - c.margin := by omega
  rw [cfgOk_iff, bands]

/-- Every operation other than `RST` runs in the frame of `operate`. -/
theorem exec_eq_operate (s : State) (h : i ≠ .rst) : ∃ f, exec i s = operate s f := by
  cases i with
  | rst => exact absurd rfl h
  | idle => exact ⟨_, exec_idle_eq s⟩
  | nop => exact ⟨_, exec_nop_eq s⟩
  | sym dH dL => exact ⟨_, exec_of_bitOf rfl⟩
  | b0 | b1 | bx | bxRsv => exact ⟨_, exec_of_bitOf rfl⟩

theorem operate_of_not_cfgOk (h : cfgOk s.par s.cfg = false) : operate s f = .refused .invalidConfig := by
  simp [operate, h]

theorem operateReset_of_not_cfgOk (h : cfgOk s.par s.cfg = false) :
    operateReset s = .refused .invalidConfig := by
  simp [operateReset, h]

theorem exec_of_not_cfgOk (h : cfgOk s.par s.cfg = false) : exec i s = .refused .invalidConfig := by
  by_cases hi : i = .rst
  · rw [hi, exec_rst_eq, operateReset_of_not_cfgOk h]
  · obtain ⟨f, hf⟩ := exec_eq_operate s hi
    rw [hf, operate_of_not_cfgOk h]

/-- Settles O38: the clauses of `cfg_ok` over the integers, and the refusal of `operate` and `operateReset`,
one of which frames each operation. -/
theorem invalidConfigurationRefused : Obligations.InvalidConfigurationRefused :=
  ⟨cfgOk_iff_int, fun _ _ => exec_of_not_cfgOk⟩

end Sys2Proof.Machine
end

section
/-! SUPPORT. What `pre_ok` and the view of the source's `SyncState` say, position by position
(10_state.md R23, R24). -/

namespace Sys2Proof.Machine

variable {P : Params} {c : Cfg} {r : Regs}

@[simp] theorem preOk_eq_true_iff : preOk c r = true ↔ c.minPreambleBits ≤ r.pcount := by
  simp [preOk]

@[simp] theorem preOk_eq_false_iff : preOk c r = false ↔ r.pcount < c.minPreambleBits := by
  simp [preOk]

theorem syncView_seek_of_lt (hst : r.st = .seek) (h : r.pcount < c.minPreambleBits) :
    syncView c r = .seekingPreamble r.pcount := by
  simp [syncView, hst, preOk_eq_false_iff.2 h]

theorem syncView_seek_of_le (hst : r.st = .seek) (h : c.minPreambleBits ≤ r.pcount) :
    syncView c r = .awaitingStartBit := by
  simp [syncView, hst, preOk_eq_true_iff.2 h]

theorem syncView_of_inFrame (h : r.st = .data ∨ r.st = .stop) : syncView c r = .inFrame := by
  obtain hst | hst := h <;> simp [syncView, hst]

/-- `cfg_ok` keeps the minimum above 0, the count of `RESET_STATE`. -/
theorem syncView_reset (h : cfgOk P c = true) : syncView c Regs.reset = .seekingPreamble 0 := by
  obtain ⟨-, ⟨hmin, -⟩, -⟩ := (cfgOk_iff P c).1 h
  exact syncView_seek_of_lt rfl hmin

/-- Settles O41: the view at each position, and in `RESET_STATE`. -/
theorem syncStateViewOfSource : Obligations.SyncStateViewOfSource :=
  ⟨fun _ _ => ⟨syncView_seek_of_lt, syncView_seek_of_le, syncView_of_inFrame⟩, fun _ _ => syncView_reset⟩

end Sys2Proof.Machine
end

section
/-! SUPPORT. What the decoder reads: the strobes of a port word are its top bits, its fields quotients and
remainders (30_encoding.md R52, R53), and a bit's code is the word of the operation named after it (R54). -/

namespace Sys2Proof

variable (P : Params) (w : Nat)

/-- A slice of one bit is the bit. -/
theorem bitField_one_beq (k : Nat) : (bitField w k 1 == 1) = w.testBit k := by
  rw [Nat.testBit_eq_decide_div_mod_eq]
  rfl

@[simp] theorem portRst_eq_testBit : portRst P w = w.testBit (2 * P.durW + 2) := bitField_one_beq w _

@[simp] theorem portIdle_eq_testBit : portIdle P w = w.testBit (2 * P.durW + 1) := bitField_one_beq w _

@[simp] theorem portSymValid_eq_testBit : portSymValid P w = w.testBit (2 * P.durW) := bitField_one_beq w _

@[simp] theorem portDH_eq_div_mod : portDH P w = w / 2 ^ P.durW % 2 ^ P.durW := rfl

@[simp] theorem portDL_eq_mod : portDL P w = w % 2 ^ P.durW := by
  simp [portDL, bitField]

/-- The priority decode over the bits of the word (R53). -/
theorem decodePort_eq_ite_testBit : decodePort P w =
    if w.testBit (2 * P.durW + 2) then .rst
    else if w.testBit (2 * P.durW + 1) then .idle
    else if w.testBit (2 * P.durW) then .sym (w / 2 ^ P.durW % 2 ^ P.durW) (w % 2 ^ P.durW)
    else .nop := by
  simp only [decodePort, portRst_eq_testBit, portIdle_eq_testBit, portSymValid_eq_testBit,
    portDH_eq_div_mod, portDL_eq_mod]

variable {P w}

theorem decode_port_of_lt (h : w < 2 ^ P.portW) : decode P (.port w) = .ok (decodePort P w) := if_pos h

/-- Settles O4: the decode by priority over the bits of the word; the canonical words compute. -/
theorem portWordPriorityDecode : Obligations.PortWordPriorityDecode := by
  refine ⟨fun P w h => ?_, rfl, rfl, rfl, fun _ _ => rfl⟩
  rw [decode_port_of_lt h, decodePort_eq_ite_testBit]

@[simp] theorem Bit.ofCode_code (b : Bit) : Bit.ofCode b.code = b := by
  cases b <;> rfl

theorem decode_bit_code (P : Params) (b : Bit) : decode P (.bit b.code.toNat) = .ok b.op := by
  cases b <;> rfl

end Sys2Proof

namespace Sys2Proof.Machine

/-- The reserved code carries the bit `Invalid`, as `BX` does (R55). -/
theorem exec_bxRsv_eq_bx (s : State) : exec .bxRsv s = exec .bx s := by
  have reserved : exec .bxRsv s = operate s (stepBit s.par s.cfg .invalid) := exec_of_bitOf rfl
  have invalid : exec .bx s = operate s (stepBit s.par s.cfg .invalid) := exec_of_bitOf rfl
  rw [reserved, invalid]

/-- Settles O8: each bit's code decodes to its operation, and the reserved one acts as `BX`. -/
theorem bitCodesAndReservedCode : Obligations.BitCodesAndReservedCode :=
  ⟨fun P b => ⟨decode_bit_code P b, Bit.ofCode_code b⟩, rfl, rfl, rfl, rfl, rfl, rfl, rfl, fun _ => rfl,
    exec_bxRsv_eq_bx⟩

end Sys2Proof.Machine
end

section
/-! SUPPORT. What the output pins carry for each outcome of a step (30_encoding.md R56). -/

namespace Sys2Proof.Machine

variable (P : Params) (c : Cfg) (k : Nat)

/-- A pin that carries a truth value is 1 when it holds, else 0. -/
theorem ofBool_eq_ite (b : Bool) : BitVec.ofBool b = if b then 1#1 else 0#1 := by
  cases b <;> rfl

theorem outPins_cfgOkO (o : StepOutcome) : (outPins P c k o).cfgOkO = BitVec.ofBool (cfgOk P c) := by
  cases o <;> rfl

@[simp] theorem outPins_none_pktStrobe : (outPins P c k .none).pktStrobe = 0#1 := rfl
@[simp] theorem outPins_none_errStrobe : (outPins P c k .none).errStrobe = 0#1 := rfl

section Abort
variable (cause : Cause) (f : Bool)

@[simp] theorem outPins_abort_pktStrobe : (outPins P c k (.abort cause f)).pktStrobe = 0#1 := rfl
@[simp] theorem outPins_abort_errStrobe : (outPins P c k (.abort cause f)).errStrobe = 1#1 := rfl
@[simp] theorem outPins_abort_errCode : (outPins P c k (.abort cause f)).errCode = cause.code := rfl
@[simp] theorem outPins_abort_errInframe :
    (outPins P c k (.abort cause f)).errInframe = BitVec.ofBool f := rfl

end Abort

section Emit
variable (p : Packet) (v : ValidationResult)

@[simp] theorem outPins_emit_pktStrobe : (outPins P c k (.emit p v)).pktStrobe = 1#1 := rfl
@[simp] theorem outPins_emit_errStrobe : (outPins P c k (.emit p v)).errStrobe = 0#1 := rfl
@[simp] theorem outPins_emit_pktResult : (outPins P c k (.emit p v)).pktResult = v.code := rfl
@[simp] theorem outPins_emit_pktPreO :
    (outPins P c k (.emit p v)).pktPreO = BitVec.ofNat P.preW p.pre := rfl
@[simp] theorem outPins_emit_pktN : (outPins P c k (.emit p v)).pktN = BitVec.ofNat P.nbW p.n := rfl
@[simp] theorem outPins_emit_pktByte :
    (outPins P c k (.emit p v)).pktByte = (List.range P.bufN).map (packetByte p) := rfl

theorem outPins_emit_pktByte_length : (outPins P c k (.emit p v)).pktByte.length = P.bufN := by
  simp

theorem outPins_emit_pktByte_getElem? {i : Nat} (h : i < P.bufN) :
    (outPins P c k (.emit p v)).pktByte[i]? = some (packetByte p i) := by
  simp [h]

variable {p} {i : Nat}

theorem packetByte_of_lt (h : i < p.n) : packetByte p i = p.bytes.getD i 0#8 := if_pos h

theorem packetByte_of_le (h : p.n ≤ i) : packetByte p i = 0#8 := if_neg (Nat.not_lt.2 h)

end Emit

/-- Settles O44: the pins of each outcome; a packet byte pin lies below `pkt_n` or not. -/
theorem outputPinsShowOutcome : Obligations.OutputPinsShowOutcome := by
  refine fun P c k => ⟨fun o => ?_, ⟨outPins_none_pktStrobe .., outPins_none_errStrobe ..⟩,
    fun cause f => ⟨outPins_abort_pktStrobe .., outPins_abort_errStrobe .., ?_, ?_⟩,
    fun p v => ⟨outPins_emit_pktStrobe .., outPins_emit_errStrobe .., ?_, outPins_emit_pktPreO ..,
      outPins_emit_pktN .., outPins_emit_pktByte_length .., fun i hi => ?_⟩⟩
  · rw [outPins_cfgOkO, ofBool_eq_ite]
  · rw [outPins_abort_errInframe, ofBool_eq_ite]
  · rw [outPins_abort_errCode]
    cases cause <;> rfl
  · rw [outPins_emit_pktResult]
    cases v <;> rfl
  · rw [outPins_emit_pktByte_getElem? P c k p v hi]
    exact ⟨fun h => congrArg some (packetByte_of_lt h), fun h => congrArg some (packetByte_of_le h)⟩

end Sys2Proof.Machine
end

section
/-! SUPPORT. The Symbol Classifier: the band test over the integers and the classification by bands
(40_classifier.md R68, R70). -/

namespace Sys2Proof.Machine

section Band
variable {d nom m : Nat}

@[simp] theorem inBand_eq_true_iff :
    inBand d nom m = true ↔ (nom : Int) - m < d ∧ (d : Int) < nom + m := by
  simp [inBand]

/-- Out of band: at or below the lower edge, or at or above the upper one. -/
theorem inBand_eq_false_iff :
    inBand d nom m = false ↔ (d : Int) ≤ nom - m ∨ (nom : Int) + m ≤ d := by
  rw [← Bool.not_eq_true, inBand_eq_true_iff, not_and_or, not_lt, not_lt]

theorem inBand_upper_edge (nom m : Nat) : inBand (nom + m) nom m = false :=
  inBand_eq_false_iff.2 (.inr (by omega))

/-- A lower edge below 0 is no duration. -/
theorem inBand_lower_edge (h : m ≤ nom) : inBand (nom - m) nom m = false :=
  inBand_eq_false_iff.2 (.inl (by omega))

theorem inBand_margin_zero (d nom : Nat) : inBand d nom 0 = false :=
  inBand_eq_false_iff.2 (by omega)

theorem card_band (nom m : Nat) : (Finset.Ioo ((nom : Int) - m) (nom + m)).card = 2 * m - 1 := by
  rw [Int.card_Ioo]
  omega

end Band

/-- Settles O11: the test over the integers, the size of the band, and its edges. -/
theorem bandIsOpenInterval : Obligations.BandIsOpenInterval := fun _ nom m =>
  ⟨inBand_eq_true_iff, fun _ => card_band nom m, inBand_upper_edge nom m, inBand_lower_edge,
    inBand_margin_zero _ nom⟩

variable {c : Cfg} {dH dL : Nat}

theorem isZero_eq_true_iff : isZero c dH dL = true ↔
    inBand dH c.zeroHigh c.margin = true ∧ inBand dL c.zeroLow c.margin = true := by
  rw [isZero, Bool.and_eq_true]

theorem isOne_eq_true_iff : isOne c dH dL = true ↔
    inBand dH c.oneHigh c.margin = true ∧ inBand dL c.oneLow c.margin = true := by
  rw [isOne, Bool.and_eq_true]

theorem classify_eq_zero_iff : classify c dH dL = .zero ↔ isZero c dH dL = true := by
  unfold classify
  split_ifs <;> simp [*]

theorem classify_eq_one_iff :
    classify c dH dL = .one ↔ ¬ isZero c dH dL = true ∧ isOne c dH dL = true := by
  unfold classify
  split_ifs <;> simp [*]

theorem classify_eq_invalid_iff :
    classify c dH dL = .invalid ↔ ¬ isZero c dH dL = true ∧ ¬ isOne c dH dL = true := by
  unfold classify
  split_ifs <;> simp [*]

/-- Settles O13: each class by the two tests, each test by its two bands. -/
theorem classificationByBands : Obligations.ClassificationByBands := by
  intro c dH dL
  simp only [← isZero_eq_true_iff, ← isOne_eq_true_iff]
  exact ⟨classify_eq_zero_iff, classify_eq_one_iff, classify_eq_invalid_iff⟩

end Sys2Proof.Machine
end

section
/-! SUPPORT. The operation `SYM` (40_classifier.md R73): its canonical word decodes to it, and it steps on
the bit of its class, whose abort `InvalidSymbol` is that of an invalid bit only (41_synchronizer.md R82). -/

namespace Sys2Proof

variable {P : Params} {dH dL : Nat}

/-- The bits of the canonical word of `SYM`. -/
def symWord (P : Params) (dH dL : Nat) : Nat := 2 ^ (2 * P.durW) + dH * 2 ^ P.durW + dL

theorem encode_sym (P : Params) (dH dL : Nat) : encode P (.sym dH dL) = .port (symWord P dH dL) := rfl

/-- The bit `sym_valid` and the high field together, over the low field. -/
theorem symWord_eq_mul_add (P : Params) (dH dL : Nat) :
    symWord P dH dL = 2 ^ P.durW * (2 ^ P.durW + dH) + dL := by
  rw [symWord, two_mul, pow_add]
  ring

theorem symWord_mod (hL : dL < 2 ^ P.durW) : symWord P dH dL % 2 ^ P.durW = dL := by
  rw [symWord_eq_mul_add, Nat.mul_add_mod, Nat.mod_eq_of_lt hL]

theorem symWord_div_mod (hH : dH < 2 ^ P.durW) (hL : dL < 2 ^ P.durW) :
    symWord P dH dL / 2 ^ P.durW % 2 ^ P.durW = dH := by
  rw [symWord_eq_mul_add, Nat.mul_add_div (Nat.two_pow_pos _), Nat.div_eq_of_lt hL, add_zero,
    Nat.add_mod_left, Nat.mod_eq_of_lt hH]

/-- The two duration fields lie below the bit `sym_valid`. -/
theorem symFields_lt (hH : dH < 2 ^ P.durW) (hL : dL < 2 ^ P.durW) :
    dH * 2 ^ P.durW + dL < 2 ^ (2 * P.durW) := by
  rw [two_mul, pow_add]
  nlinarith

theorem symWord_testBit_symValid (hH : dH < 2 ^ P.durW) (hL : dL < 2 ^ P.durW) :
    (symWord P dH dL).testBit (2 * P.durW) = true := by
  rw [symWord, add_assoc, Nat.testBit_two_pow_add_eq, Nat.testBit_lt_two_pow (symFields_lt hH hL),
    Bool.not_false]

theorem symWord_testBit_above (hH : dH < 2 ^ P.durW) (hL : dL < 2 ^ P.durW) {k : Nat}
    (hk : 2 * P.durW < k) : (symWord P dH dL).testBit k = false := by
  have word_lt : symWord P dH dL < 2 ^ (2 * P.durW + 1) := by
    have fields := symFields_lt hH hL
    rw [symWord, pow_succ]
    omega
  exact Nat.testBit_lt_two_pow (word_lt.trans_le (Nat.pow_le_pow_right two_pos hk))

/-- The strobes of the canonical word are `rst = 0`, `idle = 0`, `sym_valid = 1`. -/
theorem decodePort_symWord (hH : dH < 2 ^ P.durW) (hL : dL < 2 ^ P.durW) :
    decodePort P (symWord P dH dL) = .sym dH dL := by
  have rst := symWord_testBit_above hH hL (k := 2 * P.durW + 2) (by omega)
  have idle := symWord_testBit_above hH hL (k := 2 * P.durW + 1) (by omega)
  have symValid := symWord_testBit_symValid hH hL
  simp [decodePort_eq_ite_testBit, rst, idle, symValid, symWord_div_mod hH hL, symWord_mod hL]

theorem decode_symWord (hH : dH < 2 ^ P.durW) (hL : dL < 2 ^ P.durW) :
    decode P (.port (symWord P dH dL)) = .ok (.sym dH dL) := by
  have fits := Laws.EncodeFits.sym dH dL P (by simp [Instr.wellFormed, hH, hL])
  rw [encode_sym] at fits
  rw [decode_port_of_lt (of_decide_eq_true fits), decodePort_symWord hH hL]

end Sys2Proof

namespace Sys2Proof.Machine

variable {P : Params} {c : Cfg} {r r' : Regs} {o : StepOutcome} {b : Bit} {f : Bool}

theorem bitOf_op (c : Cfg) (b : Bit) : bitOf c b.op = some b := by
  cases b <;> rfl

theorem exec_sym_eq_op (dH dL : Nat) (s : State) :
    exec (.sym dH dL) s = exec (classify s.cfg dH dL).op s := by
  have symbol : exec (.sym dH dL) s = operate s (stepBit s.par s.cfg (classify s.cfg dH dL)) :=
    exec_of_bitOf rfl
  rw [symbol, exec_of_bitOf (bitOf_op s.cfg _)]

/-- A data bit reports nothing. -/
theorem shiftIn_outcome {v : Bool} (h : shiftIn P v r = .ok (r', o)) : o = .none := by
  obtain ⟨-, -, ho⟩ | ⟨-, hbyte⟩ := shiftIn_eq_ok h
  · exact ho
  · obtain ⟨-, ho, -⟩ := completeByte_eq_ok hbyte
    exact ho

/-- A `Zero` separator reports nothing, or the byte ceiling. -/
theorem zeroSeparator_outcome (c : Cfg) (r : Regs) : (zeroSeparator c r).2 = .none ∨
    (zeroSeparator c r).2 = .abort .byteCeilingExceeded (inFrame r) := by
  unfold zeroSeparator
  split
  · exact .inl rfl
  · exact .inr rfl

/-- Of the three bits only `Invalid` aborts with `InvalidSymbol`. -/
theorem eq_invalid_of_stepBit_invalidSymbol
    (h : stepBit P c b r = .ok (r', .abort .invalidSymbol f)) : b = .invalid := by
  obtain ⟨hb, -, -⟩ | ⟨-, -, -, ho⟩ | ⟨-, -, -, ho⟩ | ⟨v, -, -, hshift⟩ | ⟨-, -, hsep⟩ | ⟨-, -, hsep⟩ :=
    stepBit_eq_ok h
  · exact hb
  · cases ho
  · cases ho
  · cases shiftIn_outcome hshift
  · have outcome := zeroSeparator_outcome c r
    simp [← hsep] at outcome
  · obtain ⟨-, hpacket⟩ | ⟨-, -, ho⟩ := oneSeparator_eq_ok hsep
    · obtain ⟨-, -, ho⟩ := complete_eq_ok hpacket
      cases ho
    · cases ho

theorem exec_sym_invalidSymbol_iff {dH dL : Nat} {s : State} (hready : s.ready) :
    (∃ t f, exec (.sym dH dL) s = .next t ∧ t.output = s.output ++ [.abort .invalidSymbol f]) ↔
      classify s.cfg dH dL = .invalid := by
  have hbit : bitOf s.cfg (.sym dH dL) = some (classify s.cfg dH dL) := rfl
  constructor
  · rintro ⟨t, f, hexec, hout⟩
    rw [exec_of_bitOf hbit] at hexec
    obtain ⟨-, r, o, hstep, rfl⟩ := operate_eq_next hexec
    obtain rfl : o = .abort .invalidSymbol f := by simpa using hout
    exact eq_invalid_of_stepBit_invalidSymbol hstep
  · intro hclass
    rw [hclass] at hbit
    exact ⟨_, _, exec_of_stepBit hready hbit stepBit_invalid, rfl⟩

/-- Settles O16: the canonical word decodes, `SYM` acts as the operation of its class, and only an invalid
class reports `InvalidSymbol`. -/
theorem symbolActsAsItsBit : Obligations.SymbolActsAsItsBit := fun dH dL =>
  ⟨fun _ => decode_symWord, fun s => ⟨exec_sym_eq_op dH dL s, exec_sym_invalidSymbol_iff⟩⟩

end Sys2Proof.Machine
end

section
/-! SUPPORT. The synchronizer (41_synchronizer.md): what a bit does in `SEEK` (R79 to R81), and what an
`Invalid` one does in any position (R82). -/

namespace Sys2Proof.Machine

variable {c : Cfg} {r : Regs}

/-- A `One` in `SEEK` writes the count only, and at its maximum leaves it there (R79). -/
theorem countOne_eq_ite (P : Params) (r : Regs) : countOne P r =
    { r with pcount := if r.pcount < 2 ^ P.preW - 1 then r.pcount + 1 else 2 ^ P.preW - 1 } := rfl

/-- The start bit after enough ones (R80). -/
theorem zeroInSeek_of_le (h : c.minPreambleBits ≤ r.pcount) :
    zeroInSeek c r = { r with st := .data, pktPre := r.pcount, pcount := 0 } :=
  if_pos (preOk_eq_true_iff.2 h)

/-- A `Zero` after too few ones (R81). -/
theorem zeroInSeek_of_lt (h : r.pcount < c.minPreambleBits) : zeroInSeek c r = { r with pcount := 0 } :=
  if_neg (Bool.eq_false_iff.1 (preOk_eq_false_iff.2 h))

/-- The flag of an abort as R82 writes it. -/
theorem inFrame_eq_decide (r : Regs) : inFrame r = decide (r.st ≠ .seek) := rfl

/-- Settles O17: `StepBit` on a `One` in `SEEK` is the saturating count. -/
theorem oneExtendsPreamble : Obligations.OneExtendsPreamble := by
  intro s i hready hbit hst
  rw [exec_of_stepBit hready hbit (stepBit_one_seek hst), countOne_eq_ite]

/-- Settles O18: `StepBit` on a `Zero` in `SEEK`, with the count at the minimum or above. -/
theorem startBitOpensFrame : Obligations.StartBitOpensFrame := by
  intro s i hready hbit hst henough
  rw [exec_of_stepBit hready hbit (stepBit_zero_seek hst), zeroInSeek_of_le henough]

/-- Settles O19: `StepBit` on a `Zero` in `SEEK`, with the count below the minimum. -/
theorem shortPreambleIsCleared : Obligations.ShortPreambleIsCleared := by
  intro s i hready hbit hst hfew
  rw [exec_of_stepBit hready hbit (stepBit_zero_seek hst), zeroInSeek_of_lt hfew]

/-- Settles O20: `StepBit` on an `Invalid` bit is the abort sequence, whatever the position. -/
theorem invalidBitAbortsAnywhere : Obligations.InvalidBitAbortsAnywhere := by
  intro s i hready hbit
  rw [exec_of_stepBit hready hbit stepBit_invalid, inFrame_eq_decide]

end Sys2Proof.Machine
end

section
/-! SUPPORT. The assembler (42_assembler.md): a data bit by the count of bits held (R87), and a separator
below the byte ceiling and at it (R88, R89). -/

namespace Sys2Proof.Machine

variable {P : Params} {c : Cfg} {r : Regs} {v : Bool}

/-- Bit 7 leaves, the other seven move up, and `v` enters at bit 0. -/
theorem shifted_toNat (b : Byte) (v : Bool) : (shifted b v).toNat = b.toNat % 128 * 2 + v.toNat := by
  have low_bits : (b.extractLsb' 0 7).toNat = b.toNat % 128 := BitVec.extractLsb'_toNat 0 7 b
  rw [shifted, BitVec.toNat_append, BitVec.toNat_ofBool, ← Nat.shiftLeft_add_eq_or_of_lt v.toNat_lt,
    Nat.shiftLeft_eq, low_bits, pow_one]

theorem shiftIn_of_lt (h : r.bitcnt < 7) : shiftIn P v r = .ok (shiftBit v r, .none) := if_pos h

theorem shiftIn_of_eq_seven (h : r.bitcnt = 7) : shiftIn P v r = completeByte P v r :=
  if_neg (by rw [h]; decide)

theorem zeroSeparator_of_lt (h : r.nbytes < c.maxBytes) :
    zeroSeparator c r = ({ r with st := .data }, .none) := if_pos h

theorem zeroSeparator_of_le (h : c.maxBytes ≤ r.nbytes) :
    zeroSeparator c r = raise .byteCeilingExceeded r := if_neg (Nat.not_lt.2 h)

theorem oneSeparator_of_le (h : 3 ≤ r.nbytes) : oneSeparator P r = complete P r := if_pos h

/-- An abort in `STOP` is reported as one within a frame (R11, R14). -/
theorem inFrame_of_stop (h : r.st = .stop) : inFrame r = true := by
  simp [inFrame, h]

/-- A packet of `maxBytes` bytes may complete, and the buffer holds it (R36, clause (c)). -/
theorem ceiling_of_cfgOk (h : cfgOk P c = true) : 3 ≤ c.maxBytes ∧ c.maxBytes ≤ P.bufN := by
  obtain ⟨-, -, ceiling, -⟩ := (cfgOk_iff P c).1 h
  exact ceiling

/-- Settles O21: `ShiftIn(v)` with fewer than seven bits held, and with seven held and a cell free. -/
theorem dataBitsAssembleBytes : Obligations.DataBitsAssembleBytes := by
  intro s i v hready hbit hst
  have hstep : stepBit s.par s.cfg (if v then .one else .zero) s.regs = shiftIn s.par v s.regs :=
    stepBit_data v hst
  refine ⟨shifted_toNat s.regs.sreg v, fun hfew => ?_, fun hseven hfree => ?_⟩
  · rw [shiftIn_of_lt hfew] at hstep
    exact exec_of_stepBit hready hbit hstep
  · rw [shiftIn_of_eq_seven hseven, completeByte_of_lt hfree] at hstep
    exact exec_of_stepBit hready hbit hstep

/-- Settles O22: a `Zero` separator below the ceiling. -/
theorem zeroSeparatorOpensNextByte : Obligations.ZeroSeparatorOpensNextByte := by
  intro s i hready hbit hst hbelow
  have hstep := stepBit_zero_stop (P := s.par) (c := s.cfg) hst
  rw [zeroSeparator_of_lt hbelow] at hstep
  exact exec_of_stepBit hready hbit hstep

/-- Settles O23: at the ceiling a `Zero` raises the abort within the frame; a `One` completes the packet,
since a valid ceiling is no less than three bytes and no more than the buffer holds. -/
theorem zeroSeparatorAtCeilingAborts : Obligations.ZeroSeparatorAtCeilingAborts := by
  intro s i hready hst hceiling
  refine ⟨fun hbit => ?_, fun hbit => ?_⟩
  · have hstep := stepBit_zero_stop (P := s.par) (c := s.cfg) hst
    rw [zeroSeparator_of_le hceiling.ge, raise, inFrame_of_stop hst] at hstep
    exact exec_of_stepBit hready hbit hstep
  · obtain ⟨hmin, hroom⟩ := ceiling_of_cfgOk hready.1
    rw [← hceiling] at hmin hroom
    have hstep := stepBit_one_stop (P := s.par) (c := s.cfg) hst
    rw [oneSeparator_of_le hmin, complete_of_le hroom] at hstep
    exact ⟨_, _, hceiling, exec_of_stepBit hready hbit hstep⟩

end Sys2Proof.Machine
end

section
/-! SUPPORT. The emitter (43_checksum_emitter.md): a `One` separator from the third byte on (R92) and
before it (R95). -/

namespace Sys2Proof.Machine

variable {P : Params} {r : Regs}

/-- The verdict as R92 writes it, by the accumulator. -/
theorem validate_eq_ite (r : Regs) :
    validate r = if r.xacc = 0#8 then .valid else .checksumMismatch := by
  simp only [validate, csumOk, decide_eq_true_eq]

/-- The validator is not consulted before the third byte (R95). -/
theorem oneSeparator_of_lt (h : r.nbytes < 3) : oneSeparator P r = .ok (raise .framingViolation r) :=
  if_neg (Nat.not_le.2 h)

/-- Settles O24: a `One` separator with three bytes or more completes the packet, all of whose bytes are
in the buffer, and the verdict is that of the accumulator. -/
theorem endBitEmitsPacket : Obligations.EndBitEmitsPacket := by
  intro s i hready hbit hst hmin hroom
  have hstep := stepBit_one_stop (P := s.par) (c := s.cfg) hst
  rw [oneSeparator_of_le hmin, complete_of_le hroom, validate_eq_ite] at hstep
  exact exec_of_stepBit hready hbit hstep

/-- Settles O25: a `One` separator with fewer than three bytes raises the abort, within the frame. -/
theorem earlyOneViolatesFraming : Obligations.EarlyOneViolatesFraming := by
  intro s i hready hbit hst hfew
  have hstep := stepBit_one_stop (P := s.par) (c := s.cfg) hst
  rw [oneSeparator_of_lt hfew, raise, inFrame_of_stop hst] at hstep
  exact exec_of_stepBit hready hbit hstep

end Sys2Proof.Machine
end

section
/-! SUPPORT. The port operations other than `SYM` (44_port_operations.md R101 to R103): the words that
decode to each, the state each leaves, and a run of `NOP`s. -/

namespace Sys2Proof

variable {P : Params} {w : Nat}

/-- `rst` wins over every other field (R53). -/
theorem decode_port_rst (h : w < 2 ^ P.portW) (hrst : w.testBit (2 * P.durW + 2) = true) :
    decode P (.port w) = .ok .rst := by
  rw [decode_port_of_lt h, decodePort_eq_ite_testBit, if_pos hrst]

/-- `idle` wins over `sym_valid`, so that a symbol in the word is dropped (R53). -/
theorem decode_port_idle (h : w < 2 ^ P.portW) (hrst : w.testBit (2 * P.durW + 2) = false)
    (hidle : w.testBit (2 * P.durW + 1) = true) : decode P (.port w) = .ok .idle := by
  rw [decode_port_of_lt h, decodePort_eq_ite_testBit, if_neg (Bool.eq_false_iff.1 hrst), if_pos hidle]

/-- Without a strobe the durations are ignored (R53). -/
theorem decode_port_nop (h : w < 2 ^ P.portW) (hrst : w.testBit (2 * P.durW + 2) = false)
    (hidle : w.testBit (2 * P.durW + 1) = false) (hsym : w.testBit (2 * P.durW) = false) :
    decode P (.port w) = .ok .nop := by
  rw [decode_port_of_lt h, decodePort_eq_ite_testBit, if_neg (Bool.eq_false_iff.1 hrst),
    if_neg (Bool.eq_false_iff.1 hidle), if_neg (Bool.eq_false_iff.1 hsym)]

end Sys2Proof

namespace Sys2Proof.Machine

variable {s : State}

theorem operateReset_of_cfgOk (h : cfgOk s.par s.cfg = true) :
    operateReset s = .next { s.commit Regs.reset .none with resetDone := true } := if_pos h

/-- The flag for R121 plays no part: `RST` runs before the first reset as after it (R103). -/
theorem exec_rst_of_cfgOk (h : cfgOk s.par s.cfg = true) :
    exec .rst s = .next { s.after Regs.reset .none with resetDone := true } := by
  rw [exec_rst_eq, operateReset_of_cfgOk h, commit_eq_after]

theorem exec_idle_of_ready (h : s.ready) : exec .idle s = .next (s.after Regs.reset .none) := by
  rw [exec_idle_eq, operate_of_ready h rfl, commit_eq_after]

theorem exec_nop_of_ready (h : s.ready) : exec .nop s = .next (s.after s.regs .none) := by
  rw [exec_nop_eq, operate_of_ready h rfl, commit_eq_after]

theorem after_ready {r : Regs} {o : StepOutcome} (h : s.ready) : (s.after r o).ready := h

/-- The core does not count the `NOP`s between two symbols (R101): only the output stream grows. The first
`NOP` leaves a ready state with one more outcome, from which the rest add theirs. -/
theorem runOps_replicate_nop (k : Nat) (h : s.ready) :
    runOps (List.replicate k .nop) s = .next { s with output := s.output ++ List.replicate k .none } := by
  induction k generalizing s with
  | zero => simp [runOps]
  | succ k ih =>
    have rest := ih (after_ready (r := s.regs) (o := .none) h)
    simpa [List.replicate_succ, runOps, exec_nop_of_ready h, State.after] using rest

/-- Settles O1: the decode by `rst` alone, the canonical word, and the reset from any registers. -/
theorem rstReachesResetStateFromAny : Obligations.RstReachesResetStateFromAny :=
  ⟨fun _ _ => decode_port_rst, rfl, fun _ => exec_rst_of_cfgOk⟩

/-- Settles O2: the decode by `idle` below `rst`, the canonical word, and the silent reset. -/
theorem idleEmptiesSilently : Obligations.IdleEmptiesSilently :=
  ⟨fun _ _ => decode_port_idle, rfl, fun _ => exec_idle_of_ready⟩

/-- Settles O3: the decode without a strobe, the canonical word, and by induction any number of `NOP`s. -/
theorem nopsChangeNothing : Obligations.NopsChangeNothing :=
  ⟨fun _ _ => decode_port_nop, rfl, fun _ h => ⟨exec_nop_of_ready h, fun k => runOps_replicate_nop k h⟩⟩

end Sys2Proof.Machine
end

section
/-! SUPPORT. The one abort sequence (60_exceptions.md R114): an outcome that is an abort comes from `raise`
alone, so that it leaves `RESET_STATE`. -/

namespace Sys2Proof.Machine

variable {P : Params} {c : Cfg} {b : Bit} {cause : Cause} {f : Bool} {r r' : Regs}

/-- What a `Zero` separator can do: open the next byte (R88), or abort at the ceiling (R89). -/
theorem zeroSeparator_cases (c : Cfg) (r : Regs) :
    (r.nbytes < c.maxBytes ∧ zeroSeparator c r = ({ r with st := .data }, .none)) ∨
    (c.maxBytes ≤ r.nbytes ∧ zeroSeparator c r = raise .byteCeilingExceeded r) := by
  obtain below | ceiling := Nat.lt_or_ge r.nbytes c.maxBytes
  · exact .inl ⟨below, zeroSeparator_of_lt below⟩
  · exact .inr ⟨ceiling, zeroSeparator_of_le ceiling⟩

/-- Three bits can abort: an `Invalid` one, a `Zero` separator and a `One` separator. Each does it by
`raise`. -/
theorem stepBit_eq_raise_of_abort (h : stepBit P c b r = .ok (r', .abort cause f)) :
    (r', .abort cause f) = raise cause r := by
  obtain ⟨-, rfl, ho⟩ | ⟨-, -, -, ho⟩ | ⟨-, -, -, ho⟩ | ⟨v, -, -, hshift⟩ | ⟨-, -, hsep⟩ | ⟨-, -, hsep⟩ :=
    stepBit_eq_ok h
  · cases ho
    rfl
  · cases ho
  · cases ho
  · cases shiftIn_outcome hshift
  · obtain ⟨-, opens⟩ | ⟨-, raises⟩ := zeroSeparator_cases c r
    · cases hsep.trans opens
    · cases hsep.trans raises
      rfl
  · obtain ⟨-, hpacket⟩ | ⟨-, rfl, ho⟩ := oneSeparator_eq_ok hsep
    · obtain ⟨-, -, ho⟩ := complete_eq_ok hpacket
      cases ho
    · cases ho
      rfl

/-- Settles O37: `RST`, `IDLE` and `NOP` report nothing, so that the operation carries a bit; its abort is
that of `raise`. -/
theorem abortLeavesResetState : Obligations.AbortLeavesResetState := by
  intro s t i cause f hexec hout
  obtain ⟨-, -, rfl⟩ | ⟨-, -, rfl⟩ | ⟨-, -, rfl⟩ | ⟨b, r, o, -, -, hstep, rfl⟩ := exec_eq_next hexec
  · simp at hout
  · simp at hout
  · simp at hout
  · obtain rfl : o = .abort cause f := by simpa using hout
    cases stepBit_eq_raise_of_abort hstep
    exact ⟨inFrame_eq_decide s.regs, rfl, rfl⟩

end Sys2Proof.Machine
end

section
/-! SUPPORT. The invariant of the registers (10_state.md R26) is kept by each thing a classified bit can
do. -/

namespace Sys2Proof.Machine

variable {P : Params} {c : Cfg} {b : Bit} {v : Bool} {r r' : Regs} {o : StepOutcome}

/-- An increment that saturates stays within the counter's width (R9). -/
theorem satInc_le (N n : Nat) : satInc N n ≤ 2 ^ N - 1 := by
  unfold satInc
  split <;> omega

/-- The exclusive or of the cells below `n + 1` after cell `n` is written: that of the cells below `n`,
with the new byte (R20, R87). -/
theorem xorBytes_read_write {m : Memory} (h : Memory.wf m = true) (n : Nat) (x : Byte) :
    xorBytes ((List.range (n + 1)).map (Memory.read (Memory.write m n x))) =
      xorBytes ((List.range n).map (Memory.read m)) ^^^ x := by
  have untouched : (List.range n).map (Memory.read (Memory.write m n x)) =
      (List.range n).map (Memory.read m) :=
    List.map_congr_left fun j hj => Memory.read_write_other (List.mem_range.1 hj).ne x
  rw [List.range_succ, List.map_append, xorBytes_append, untouched]
  simp [xorBytes, Memory.read_write_same h]

/-- The value of fewer than seven bits held, with one more shifted in (R87). -/
theorem shifted_lt (sreg : Byte) (v : Bool) {n : BitVec 3} (hfew : n < 7)
    (hsmall : sreg.toNat < 2 ^ n.toNat) : (shifted sreg v).toNat < 2 ^ (n + 1).toNat := by
  have hsucc : (n + 1).toNat = n.toNat + 1 := by bv_omega
  have hbit := v.toNat_lt
  rw [shifted_toNat, hsucc, pow_succ]
  omega

theorem regsInv_reset (hc : cfgOk P c = true) : RegsInv P c Regs.reset where
  pcount_fits := Nat.zero_le _
  pktPre_fits := Nat.zero_le _
  buf_wf := rfl
  seek_empty _ := ⟨rfl, rfl, rfl, rfl, rfl, fun _ => rfl⟩
  inFrame_pre h := absurd rfl h
  data_room h := nomatch h
  stop_full h := nomatch h
  sreg_small := Nat.two_pow_pos _
  xacc_eq := rfl
  buf_zero _ _ := rfl
  nbytes_le := ⟨Nat.zero_le _, (ceiling_of_cfgOk hc).2⟩

theorem regsInv_countOne (h : RegsInv P c r) (hst : r.st = .seek) : RegsInv P c (countOne P r) :=
  { h with
    pcount_fits := satInc_le _ _
    inFrame_pre := fun hframe => absurd hst hframe }

/-- A frame opens with no byte held, which is below any valid ceiling. -/
theorem regsInv_zeroInSeek (hc : cfgOk P c = true) (h : RegsInv P c r) (hst : r.st = .seek) :
    RegsInv P c (zeroInSeek c r) := by
  obtain ⟨-, -, -, hempty, -, -⟩ := h.seek_empty hst
  obtain few | enough := Nat.lt_or_ge r.pcount c.minPreambleBits
  · rw [zeroInSeek_of_lt few]
    exact { h with
      pcount_fits := Nat.zero_le _
      inFrame_pre := fun hframe => absurd hst hframe }
  · rw [zeroInSeek_of_le enough]
    have hmin := (ceiling_of_cfgOk hc).1
    exact { h with
      pcount_fits := Nat.zero_le _
      pktPre_fits := h.pcount_fits
      seek_empty := nofun
      inFrame_pre := fun _ => ⟨rfl, enough⟩
      data_room := fun _ => by rw [hempty]; omega
      stop_full := nofun }

theorem regsInv_shiftBit (h : RegsInv P c r) (hst : r.st = .data) (hfew : r.bitcnt < 7) :
    RegsInv P c (shiftBit v r) :=
  { h with
    seek_empty := fun hseek => nomatch hst.symm.trans hseek
    stop_full := fun hstop => nomatch hst.symm.trans hstop
    sreg_small := shifted_lt r.sreg v hfew h.sreg_small }

/-- The byte goes to the first cell not yet in use, and joins the accumulator. -/
theorem regsInv_completeByte (h : RegsInv P c r) (hst : r.st = .data) (hbyte : completeByte P v r = .ok (r', o)) :
    RegsInv P c r' := by
  obtain ⟨-, -, rfl⟩ := completeByte_eq_ok hbyte
  have hroom := h.data_room hst
  obtain ⟨hcount, hpre⟩ := h.inFrame_pre (by simp [hst])
  exact {
    pcount_fits := h.pcount_fits
    pktPre_fits := h.pktPre_fits
    buf_wf := Memory.wf_write h.buf_wf _ _
    seek_empty := nofun
    inFrame_pre := fun _ => ⟨hcount, hpre⟩
    data_room := nofun
    stop_full := fun _ => ⟨rfl, rfl, Nat.le_add_left 1 _, hroom⟩
    sreg_small := Nat.two_pow_pos _
    xacc_eq := by rw [xorBytes_read_write h.buf_wf, ← h.xacc_eq]
    buf_zero := fun i (hi : r.nbytes + 1 ≤ i) => by
      rw [Memory.read_write_other (by omega), h.buf_zero i (by omega)]
    nbytes_le := ⟨hroom, h.nbytes_le.2⟩ }

theorem regsInv_shiftIn (h : RegsInv P c r) (hst : r.st = .data) (hshift : shiftIn P v r = .ok (r', o)) :
    RegsInv P c r' := by
  obtain ⟨hfew, rfl, -⟩ | ⟨-, hbyte⟩ := shiftIn_eq_ok hshift
  · exact regsInv_shiftBit h hst hfew
  · exact regsInv_completeByte h hst hbyte

theorem regsInv_zeroSeparator (hc : cfgOk P c = true) (h : RegsInv P c r) (hst : r.st = .stop)
    (hsep : (r', o) = zeroSeparator c r) : RegsInv P c r' := by
  obtain ⟨below, opens⟩ | ⟨-, raises⟩ := zeroSeparator_cases c r
  · cases hsep.trans opens
    exact { h with
      seek_empty := nofun
      inFrame_pre := fun _ => h.inFrame_pre (by simp [hst])
      data_room := fun _ => below
      stop_full := nofun }
  · cases hsep.trans raises
    exact regsInv_reset hc

/-- A `One` separator ends the frame either way. -/
theorem regsInv_oneSeparator (hc : cfgOk P c = true) (hsep : oneSeparator P r = .ok (r', o)) : RegsInv P c r' := by
  obtain ⟨-, hpacket⟩ | ⟨-, rfl, -⟩ := oneSeparator_eq_ok hsep
  · obtain ⟨-, rfl, -⟩ := complete_eq_ok hpacket
    exact regsInv_reset hc
  · exact regsInv_reset hc

theorem regsInv_stepBit (hc : cfgOk P c = true) (h : RegsInv P c r) (hstep : stepBit P c b r = .ok (r', o)) :
    RegsInv P c r' := by
  obtain ⟨-, rfl, -⟩ | ⟨-, hst, rfl, -⟩ | ⟨-, hst, rfl, -⟩ | ⟨v, -, hst, hshift⟩ | ⟨-, hst, hsep⟩ |
    ⟨-, -, hsep⟩ := stepBit_eq_ok hstep
  · exact regsInv_reset hc
  · exact regsInv_countOne h hst
  · exact regsInv_zeroInSeek hc h hst
  · exact regsInv_shiftIn h hst hshift
  · exact regsInv_zeroSeparator hc h hst hsep
  · exact regsInv_oneSeparator hc hsep

end Sys2Proof.Machine
end

section
/-! SUPPORT. From a state that meets the invariant every operation has a successor, which meets it again
(10_state.md R26, 60_exceptions.md R110). -/

namespace Sys2Proof

/-- Every word an interface can carry decodes (R63). -/
theorem decode_of_wellFormed {P : Params} {w : InWord} (h : w.wellFormed P = true) :
    ∃ i, decode P w = .ok i := by
  cases w with
  | port w => exact ⟨_, decode_port_of_lt (of_decide_eq_true h)⟩
  | bit code =>
    have fits : code < 4 := of_decide_eq_true h
    match code, fits with
    | 0, _ => exact ⟨_, rfl⟩
    | 1, _ => exact ⟨_, rfl⟩
    | 2, _ => exact ⟨_, rfl⟩
    | 3, _ => exact ⟨_, rfl⟩

end Sys2Proof

namespace Sys2Proof.Machine

variable {P : Params} {c : Cfg} {r : Regs} {s t : State} {i : Instr}

/-- A data bit finds a cell for its byte, since in `DATA` a byte is still missing to the ceiling. -/
theorem shiftIn_total (v : Bool) (h : RegsInv P c r) (hst : r.st = .data) :
    ∃ r' o, shiftIn P v r = .ok (r', o) := by
  have hroom := h.data_room hst
  obtain ⟨-, hceiling⟩ := h.nbytes_le
  unfold shiftIn
  split
  · exact ⟨_, _, rfl⟩
  · exact ⟨_, _, completeByte_of_lt (by omega)⟩

/-- A `One` separator reads cells that exist, since the buffer holds every completed byte. -/
theorem oneSeparator_total (h : RegsInv P c r) : ∃ r' o, oneSeparator P r = .ok (r', o) := by
  obtain ⟨hcount, hceiling⟩ := h.nbytes_le
  obtain few | enough := Nat.lt_or_ge r.nbytes 3
  · exact ⟨_, _, oneSeparator_of_lt few⟩
  · exact ⟨_, _, (oneSeparator_of_le enough).trans (complete_of_le (by omega))⟩

/-- The two buffer accesses are the only places where a bit could fault. -/
theorem stepBit_total (b : Bit) (h : RegsInv P c r) : ∃ r' o, stepBit P c b r = .ok (r', o) := by
  cases b with
  | invalid => exact ⟨_, _, stepBit_invalid⟩
  | one =>
    rcases hst : r.st with _ | _ | _
    · exact ⟨_, _, stepBit_one_seek hst⟩
    · rw [stepBit_one_data hst]
      exact shiftIn_total true h hst
    · rw [stepBit_one_stop hst]
      exact oneSeparator_total h
  | zero =>
    rcases hst : r.st with _ | _ | _
    · exact ⟨_, _, stepBit_zero_seek hst⟩
    · rw [stepBit_zero_data hst]
      exact shiftIn_total false h hst
    · exact ⟨_, _, stepBit_zero_stop hst⟩

theorem exec_total (i : Instr) (h : s.Inv) (hreset : s.resetDone = true) : ∃ t, exec i s = .next t := by
  have hready : s.ready := ⟨h.cfg_ok, hreset⟩
  cases hbit : bitOf s.cfg i with
  | some b =>
    obtain ⟨r, o, hstep⟩ := stepBit_total b (h.regs_ok hreset)
    exact ⟨_, exec_of_stepBit hready hbit hstep⟩
  | none =>
    cases i with
    | rst => exact ⟨_, exec_rst_of_cfgOk h.cfg_ok⟩
    | idle => exact ⟨_, exec_idle_of_ready hready⟩
    | nop => exact ⟨_, exec_nop_of_ready hready⟩
    | sym | b0 | b1 | bx | bxRsv => cases hbit

theorem exec_keeps_inv (h : s.Inv) (hexec : exec i s = .next t) : t.Inv := by
  obtain ⟨-, -, rfl⟩ | ⟨-, -, rfl⟩ | ⟨-, -, rfl⟩ | ⟨b, r, o, -, -, hstep, rfl⟩ := exec_eq_next hexec
  · exact ⟨h.cfg_ok, fun _ => regsInv_reset h.cfg_ok⟩
  · exact ⟨h.cfg_ok, fun _ => regsInv_reset h.cfg_ok⟩
  · exact ⟨h.cfg_ok, h.regs_ok⟩
  · exact ⟨h.cfg_ok, fun hreset => regsInv_stepBit h.cfg_ok (h.regs_ok hreset) hstep⟩

/-- The invariant does not speak of the input: taking a word keeps it. -/
theorem inv_with_input (h : s.Inv) (ws : List InWord) : State.Inv { s with input := ws } :=
  ⟨h.cfg_ok, h.regs_ok⟩

theorem step_keeps_inv (h : s.Inv) (hstep : step s = .next t) : t.Inv := by
  obtain ⟨-, ws, i, -, -, hexec⟩ := step_eq_next hstep
  exact exec_keeps_inv (inv_with_input h ws) hexec

/-- A word that decodes is taken, and its operation runs (R6, R99). -/
theorem step_of_decode {w : InWord} {ws : List InWord} (hin : s.input = w :: ws)
    (hdec : decode s.par w = .ok i) : step s = exec i { s with input := ws } := by
  rw [step, fetch_cons hin hdec]

/-- Settles O34: the word decodes, its operation answers a next state, and the step keeps the invariant. -/
theorem everyPresentableWordHasSuccessor : Obligations.EveryPresentableWordHasSuccessor := by
  intro s w ws hinv hreset hin hfits
  obtain ⟨i, hdec⟩ := decode_of_wellFormed hfits
  obtain ⟨t, hexec⟩ := exec_total i (inv_with_input hinv ws) hreset
  have hstep : step s = .next t := (step_of_decode hin hdec).trans hexec
  exact ⟨t, hstep, step_keeps_inv hinv hstep⟩

end Sys2Proof.Machine
end

section
/-! SUPPORT. Before the first `RST` (70_reset_and_hazards.md R121): under a valid configuration the frame
`operate`, in which every operation but `RST` runs, refuses without a look at the registers. -/

namespace Sys2Proof.Machine

variable {s : State} {i : Instr} {f : Regs → StepResult}

theorem operate_of_not_resetDone (hcfg : cfgOk s.par s.cfg = true) (hreset : s.resetDone = false) :
    operate s f = .refused .notReset := by
  simp [operate, hcfg, hreset]

theorem exec_of_not_resetDone (hcfg : cfgOk s.par s.cfg = true) (hreset : s.resetDone = false)
    (hi : i ≠ .rst) : exec i s = .refused .notReset := by
  obtain ⟨f, hf⟩ := exec_eq_operate s hi
  rw [hf, operate_of_not_resetDone hcfg hreset]

/-- Settles O39: every operation but `RST` runs in the frame of `operate`, which refuses. -/
theorem refusedBeforeFirstReset : Obligations.RefusedBeforeFirstReset :=
  fun _ _ => exec_of_not_resetDone

end Sys2Proof.Machine
end

section
/-! SUPPORT. Decoding and encoding agree (30_encoding.md sections 2, 3 and 7): a canonical word decodes to its
operation, what decodes fits, and each strobe of a port word by the operation it decodes to. -/

namespace Sys2Proof

variable {P : Params} {w : Nat} {i : Instr}

/-- Of the canonical word of `RST` only the bit `rst` matters; of those of `IDLE` and `NOP` the bits above
their own are 0. -/
theorem decode_encode (h : i.wellFormed P = true) : decode P (encode P i) = .ok i := by
  cases i with
  | rst => exact decode_port_rst (of_decide_eq_true (Laws.EncodeFits.rst P h)) Nat.testBit_two_pow_self
  | idle =>
    exact decode_port_idle (of_decide_eq_true (Laws.EncodeFits.idle P h))
      (Nat.testBit_two_pow_of_ne (by omega)) Nat.testBit_two_pow_self
  | sym dH dL =>
    simp only [Instr.wellFormed, Bool.and_eq_true, decide_eq_true_eq] at h
    exact decode_symWord h.1 h.2
  | nop =>
    exact decode_port_nop (Nat.two_pow_pos _) (Nat.zero_testBit _) (Nat.zero_testBit _) (Nat.zero_testBit _)
  | b0 | b1 | bx | bxRsv => rfl

/-- Settles O5: one canonical word for each operation; that of `SYM` keeps both operands. -/
theorem decodeEncodeRoundTrip : Obligations.DecodeEncodeRoundTrip := fun _ _ => decode_encode

theorem code_lt_four_of_decodeBit {code : Nat} (h : decodeBit code = .ok i) : code < 4 := by
  by_contra wide
  obtain ⟨k, rfl⟩ := Nat.exists_eq_add_of_le' (Nat.not_lt.1 wide)
  cases h

theorem wellFormed_of_decode {word : InWord} (h : decode P word = .ok i) : word.wellFormed P = true := by
  cases word with
  | port w =>
    by_contra wide
    cases (if_neg fun fits => wide (decide_eq_true fits)).symm.trans h
  | bit code => exact decide_eq_true (code_lt_four_of_decodeBit h)

/-- The fields of a port word are remainders by `2^DUR_W`. -/
theorem decodePort_wellFormed (P : Params) (w : Nat) : (decodePort P w).wellFormed P = true := by
  have field_lt : ∀ n, n % 2 ^ P.durW < 2 ^ P.durW := fun n => Nat.mod_lt n (Nat.two_pow_pos _)
  rw [decodePort_eq_ite_testBit]
  split_ifs
  · rfl
  · rfl
  · simp [Instr.wellFormed, field_lt]
  · rfl

/-- Only the port presents operands; a bit code has none. -/
theorem instr_wellFormed_of_decode {word : InWord} (h : decode P word = .ok i) : i.wellFormed P = true := by
  have fits := wellFormed_of_decode h
  cases word with
  | port w =>
    cases (decode_port_of_lt (of_decide_eq_true fits)).symm.trans h
    exact decodePort_wellFormed P w
  | bit code =>
    match code, code_lt_four_of_decodeBit h with
    | 0, _ | 1, _ | 2, _ | 3, _ => cases h; rfl

/-- Settles O6: what fits decodes, what decodes fits, and so do the operands decoded. -/
theorem noPresentableWordIsIllegal : Obligations.NoPresentableWordIsIllegal := fun _ _ =>
  ⟨⟨fun ⟨_, h⟩ => wellFormed_of_decode h, decode_of_wellFormed⟩, fun _ => instr_wellFormed_of_decode⟩

/-- Settles O7: each word is a numeral, whose decoding computes. -/
theorem opcodeTableWordsDecode : Obligations.OpcodeTableWordsDecode := by
  unfold Obligations.OpcodeTableWordsDecode
  decide

theorem decodePort_eq_rst_iff : decodePort P w = .rst ↔ w.testBit (2 * P.durW + 2) = true := by
  rw [decodePort_eq_ite_testBit]
  split_ifs <;> simp [*]

theorem decodePort_eq_idle_iff : decodePort P w = .idle ↔
    ¬ w.testBit (2 * P.durW + 2) = true ∧ w.testBit (2 * P.durW + 1) = true := by
  rw [decodePort_eq_ite_testBit]
  split_ifs <;> simp [*]

theorem decodePort_eq_sym_iff :
    decodePort P w = .sym (w / 2 ^ P.durW % 2 ^ P.durW) (w % 2 ^ P.durW) ↔
      ¬ w.testBit (2 * P.durW + 2) = true ∧ ¬ w.testBit (2 * P.durW + 1) = true ∧
        w.testBit (2 * P.durW) = true := by
  rw [decodePort_eq_ite_testBit]
  split_ifs <;> simp [*]

/-- The duty of R125 over the bits of the word: no two of the three strobes. -/
theorem oneStrobe_iff : Machine.oneStrobe P w = true ↔
    ¬ (w.testBit (2 * P.durW + 2) = true ∧ w.testBit (2 * P.durW + 1) = true) ∧
    ¬ (w.testBit (2 * P.durW + 2) = true ∧ w.testBit (2 * P.durW) = true) ∧
    ¬ (w.testBit (2 * P.durW + 1) = true ∧ w.testBit (2 * P.durW) = true) := by
  simp only [Machine.oneStrobe, portRst_eq_testBit, portIdle_eq_testBit, portSymValid_eq_testBit,
    Bool.and_eq_true, Bool.not_eq_true', ← Bool.not_eq_true, and_assoc]

/-- Settles O9: the strobes above the one that is set are 0, so the priority decode comes to it. -/
theorem oneStrobeWordsNeedNoPriority : Obligations.OneStrobeWordsNeedNoPriority := by
  intro P w hfits hduty
  obtain ⟨not_rst_idle, not_rst_sym, not_idle_sym⟩ := oneStrobe_iff.1 hduty
  simp only [decode_port_of_lt hfits, Except.ok.injEq, decodePort_eq_rst_iff, decodePort_eq_idle_iff,
    decodePort_eq_sym_iff]
  tauto

end Sys2Proof
end

section
/-! SUPPORT. More of the classifier: the band test without a subtraction (40_classifier.md section 2), the
exclusion of the two tests (section 3), the bands of the suggested durations, and the host's clipping
(30_encoding.md R61). -/

namespace Sys2Proof.Machine

section Band
variable {W d nom m : Nat}

/-- A sum of two `W`-bit values does not wrap in `W + 1` bits. -/
theorem ofNat_add_toNat {a b : Nat} (ha : a < 2 ^ W) (hb : b < 2 ^ W) :
    (BitVec.ofNat (W + 1) a + BitVec.ofNat (W + 1) b).toNat = a + b := by
  rw [← BitVec.ofNat_add, BitVec.toNat_ofNat, Nat.mod_eq_of_lt (by rw [pow_succ]; omega)]

theorem ofNat_toNat_of_lt {a : Nat} (ha : a < 2 ^ W) : (BitVec.ofNat (W + 1) a).toNat = a := by
  rw [BitVec.toNat_ofNat, Nat.mod_eq_of_lt (by rw [pow_succ]; omega)]

/-- The margin of the lower edge, moved to the other side. -/
theorem inBand_eq_unsigned (d nom m : Nat) : inBand d nom m = (decide (nom < d + m) && decide (d < nom + m)) := by
  have lower : (nom : Int) - m < d ↔ nom < d + m := by omega
  have upper : (d : Int) < nom + m ↔ d < nom + m := by omega
  simp only [inBand, lower, upper]

/-- Settles O12: no sum wraps, so both comparisons are those of naturals. -/
theorem bandTestInUnsignedWords : Obligations.BandTestInUnsignedWords := by
  intro W d nom m hd hnom hm
  simp only [inBand_eq_unsigned, gt_iff_lt, BitVec.lt_def, ofNat_add_toNat hd hm, ofNat_add_toNat hnom hm,
    ofNat_toNat_of_lt hd, ofNat_toNat_of_lt hnom]

end Band

variable {P : Params} {c : Cfg} {d dH dL nom : Nat}

/-- Disjoint High bands: no High half lies in both (R36, clause (a)). -/
theorem not_isZero_and_isOne (h : cfgOk P c = true) : ¬ (isZero c dH dL = true ∧ isOne c dH dL = true) := by
  obtain ⟨disjoint, -⟩ := (cfgOk_iff P c).1 h
  simp only [isZero_eq_true_iff, isOne_eq_true_iff, inBand_eq_true_iff]
  omega

/-- Settles O14: no symbol meets both tests, so that either may come first. -/
theorem validBandsAreExclusive : Obligations.ValidBandsAreExclusive := by
  intro P c dH dL hcfg
  have exclusive := not_isZero_and_isOne (dH := dH) (dL := dL) hcfg
  refine ⟨exclusive, ?_⟩
  unfold classify
  split_ifs with zero one
  · exact absurd ⟨zero, one⟩ exclusive
  · rfl
  · rfl
  · rfl

/-- The durations and the margin of the suggested configuration (R8; notes/assumptions/2.md), whatever the
other fields. -/
structure SuggestedDurations (c : Cfg) : Prop where
  zeroHigh : c.zeroHigh = 100
  zeroLow : c.zeroLow = 100
  oneHigh : c.oneHigh = 58
  oneLow : c.oneLow = 58
  margin : c.margin = 5

theorem isZero_of_suggested (h : SuggestedDurations c) :
    isZero c dH dL = true ↔ (96 ≤ dH ∧ dH ≤ 104) ∧ (96 ≤ dL ∧ dL ≤ 104) := by
  rw [isZero_eq_true_iff, inBand_eq_true_iff, inBand_eq_true_iff, h.zeroHigh, h.zeroLow, h.margin]
  omega

theorem isOne_of_suggested (h : SuggestedDurations c) :
    isOne c dH dL = true ↔ (54 ≤ dH ∧ dH ≤ 62) ∧ (54 ≤ dL ∧ dL ≤ 62) := by
  rw [isOne_eq_true_iff, inBand_eq_true_iff, inBand_eq_true_iff, h.oneHigh, h.oneLow, h.margin]
  omega

theorem suggestedDurations_default : SuggestedDurations Cfg.default := ⟨rfl, rfl, rfl, rfl, rfl⟩

theorem cfgOk_default : cfgOk Params.default Cfg.default = true := by decide

/-- Settles O15: the class by the two tests, which on the suggested durations are these ranges. -/
theorem suggestedBands : Obligations.SuggestedBands := by
  refine ⟨cfgOk_default, fun dH dL => ⟨?_, ?_⟩⟩
  · rw [classify_eq_one_iff, isZero_of_suggested suggestedDurations_default,
      isOne_of_suggested suggestedDurations_default]
    omega
  · rw [classify_eq_zero_iff, isZero_of_suggested suggestedDurations_default]

theorem clip_lt (P : Params) (d : Nat) : clip P d < 2 ^ P.durW := by
  have := Nat.two_pow_pos P.durW
  unfold clip
  omega

theorem clip_of_lt (h : d < 2 ^ P.durW) : clip P d = d := Nat.min_eq_left (by omega)

/-- A clipped duration lies at or above the upper edge of a band that ends by `2^DUR_W - 1`. -/
theorem inBand_clip (hband : nom + c.margin ≤ 2 ^ P.durW - 1) (h : 2 ^ P.durW ≤ d) :
    inBand (clip P d) nom c.margin = false :=
  inBand_eq_false_iff.2 (.inr (by unfold clip; omega))

theorem captured_wellFormed (P : Params) (high low : Nat) : (captured P high low).wellFormed P = true := by
  simp [captured, Instr.wellFormed, clip_lt]

/-- Settles O10: clipping gives a value of `DUR_W` bits, keeps one that is, and leaves a longer one outside
every band, so that the symbol meets neither test. -/
theorem capturedCellIsPresentable : Obligations.CapturedCellIsPresentable := by
  refine fun P high low => ⟨captured_wellFormed P high low, fun hhigh hlow => ?_,
    fun c zeroHigh zeroLow oneHigh oneLow clipped => ?_⟩
  · rw [captured, clip_of_lt hhigh, clip_of_lt hlow]
  · rw [classify_eq_invalid_iff, isZero_eq_true_iff, isOne_eq_true_iff]
    obtain long | long := clipped
    · simp [inBand_clip zeroHigh long, inBand_clip oneHigh long]
    · simp [inBand_clip zeroLow long, inBand_clip oneLow long]

end Sys2Proof.Machine
end

section
/-! SUPPORT. What every step leaves and what it adds (00_scope.md sections 4 and 6, 10_state.md section 6), the
machine right after reset, and the step of a list of words. -/

namespace Sys2Proof.Machine

variable {s t : State} {i : Instr} {b : Bit}

/-- Settles O33: the operation of the decoded word keeps the invariant, by the cases of `StepBit`. -/
theorem stepKeepsInvariant : Obligations.StepKeepsInvariant := fun _ _ => step_keeps_inv

/-- Settles O29: the word is taken and decoded, and its operation runs. -/
theorem stepRunsDecodedOperation : Obligations.StepRunsDecodedOperation := fun _ _ _ _ => step_of_decode

theorem step_of_input_nil (h : s.input = []) : step s = .refused .noPortWord := by
  simp [step, fetch, h]

/-- Settles O40: there is no word to fetch. -/
theorem endOfInputEndsRun : Obligations.EndOfInputEndsRun := fun _ => step_of_input_nil

/-- Settles O31: each register of `RESET_STATE` is a literal, and an empty buffer reads 0. -/
theorem resetStateValues : Obligations.ResetStateValues :=
  ⟨rfl, rfl, rfl, rfl, rfl, rfl, rfl, rfl, Memory.read_nil⟩

/-- Settles O32: the suggested configuration is valid, and `RESET_STATE` meets the invariant under any that
is. -/
theorem resetMeetsInvariant : Obligations.ResetMeetsInvariant :=
  ⟨cfgOk_default, fun _ => regsInv_reset cfgOk_default⟩

/-- The constants stay, the input is not read, and one outcome is added, whatever the operation. -/
theorem exec_frame (h : exec i s = .next t) :
    t.cfg = s.cfg ∧ t.par = s.par ∧ t.input = s.input ∧ (s.resetDone = true → t.resetDone = true) ∧
      ∃ o, t.output = s.output ++ [o] := by
  obtain ⟨-, -, rfl⟩ | ⟨-, -, rfl⟩ | ⟨-, -, rfl⟩ | ⟨b, r, o, -, -, -, rfl⟩ := exec_eq_next h
  · exact ⟨rfl, rfl, rfl, fun _ => rfl, _, rfl⟩
  · exact ⟨rfl, rfl, rfl, id, _, rfl⟩
  · exact ⟨rfl, rfl, rfl, id, _, rfl⟩
  · exact ⟨rfl, rfl, rfl, id, _, rfl⟩

/-- Settles O35: taking the word writes the input only, and no operation writes the constants. -/
theorem configurationIsImmutable : Obligations.ConfigurationIsImmutable := by
  intro s t hstep
  obtain ⟨-, ws, i, -, -, hexec⟩ := step_eq_next hstep
  obtain ⟨hcfg, hpar, -, hreset, -⟩ := exec_frame hexec
  exact ⟨hcfg, hpar, hreset⟩

/-- Settles O36: the fetch takes the word, and the operation adds the outcome. -/
theorem oneWordOneOutcomePerStep : Obligations.OneWordOneOutcomePerStep := by
  intro s t hstep
  obtain ⟨w, ws, i, hin, -, hexec⟩ := step_eq_next hstep
  obtain ⟨-, -, hrest, -, hout⟩ := exec_frame hexec
  exact ⟨⟨w, by rw [hin, hrest]⟩, hout⟩

/-- Everything an operation with a bit can do, when it answers a next state. -/
theorem exec_eq_next_of_bitOf (hb : bitOf s.cfg i = some b) (h : exec i s = .next t) :
    s.ready ∧ ∃ r o, stepBit s.par s.cfg b s.regs = .ok (r, o) ∧ t = s.after r o := by
  rw [exec_of_bitOf hb] at h
  exact operate_eq_next h

end Sys2Proof.Machine
end

section
/-! SUPPORT. The packet: what its emission needs (43_checksum_emitter.md R92, R97), that its verdict is the
source's comparison (section 2), and that its numbers fit their pins (30_encoding.md section 4). -/

namespace Sys2Proof.Machine

variable {P : Params} {c : Cfg} {b : Bit} {r r' : Regs} {s t : State} {i : Instr} {p : Packet}
  {v : ValidationResult}

/-- Settles O26: the accumulator is the exclusive or of the bytes before the last, with the last, and that
is 0 exactly when the two are equal. -/
theorem accumulatorTestIsChecksumComparison : Obligations.AccumulatorTestIsChecksumComparison := by
  intro P c r hinv hsome
  obtain ⟨n, hn⟩ := Nat.exists_eq_add_of_le' hsome
  rw [hinv.xacc_eq, hn, Nat.add_sub_cancel, List.range_succ, List.map_append, xorBytes_append]
  simp [xorBytes]

/-- The packet an end bit emits from the registers before it (R92). -/
def heldPacket (r : Regs) : Packet := ⟨r.pktPre, r.nbytes, (List.range r.nbytes).map (Memory.read r.buf)⟩

/-- Of all that a bit can do only `Complete` emits, and it runs on a `One` separator from the third byte
on. -/
theorem stepBit_eq_emit (h : stepBit P c b r = .ok (r', .emit p v)) :
    b = .one ∧ r.st = .stop ∧ 3 ≤ r.nbytes ∧ p = heldPacket r ∧ v = validate r := by
  obtain ⟨-, -, ho⟩ | ⟨-, -, -, ho⟩ | ⟨-, -, -, ho⟩ | ⟨_, -, -, hshift⟩ | ⟨-, -, hsep⟩ | ⟨hone, hst, hsep⟩ :=
    stepBit_eq_ok h
  · cases ho
  · cases ho
  · cases ho
  · cases shiftIn_outcome hshift
  · obtain ⟨-, opens⟩ | ⟨-, raises⟩ := zeroSeparator_cases c r
    · cases hsep.trans opens
    · cases hsep.trans raises
  · obtain ⟨enough, hpacket⟩ | ⟨-, -, ho⟩ := oneSeparator_eq_ok hsep
    · obtain ⟨-, -, ho⟩ := complete_eq_ok hpacket
      cases ho
      exact ⟨hone, hst, enough, rfl, rfl⟩
    · cases ho

/-- `RST`, `IDLE` and `NOP` report nothing, so an operation that emits carries a bit. -/
theorem exec_eq_emit (hexec : exec i s = .next t) (hout : t.output = s.output ++ [.emit p v]) :
    s.ready ∧ bitOf s.cfg i = some .one ∧ s.regs.st = .stop ∧ 3 ≤ s.regs.nbytes ∧ p = heldPacket s.regs ∧
      v = validate s.regs := by
  obtain ⟨-, -, rfl⟩ | ⟨-, -, rfl⟩ | ⟨-, -, rfl⟩ | ⟨b, r, o, hbit, hready, hstep, rfl⟩ := exec_eq_next hexec
  · simp at hout
  · simp at hout
  · simp at hout
  · obtain rfl : o = .emit p v := by simpa using hout
    obtain ⟨rfl, hst, enough, hp, hv⟩ := stepBit_eq_emit hstep
    exact ⟨hready, hbit, hst, enough, hp, hv⟩

/-- Settles O27: an emission is `Complete`'s, whose conditions these are. -/
theorem onlyEndBitEmits : Obligations.OnlyEndBitEmits := by
  intro s t i p v hexec hout
  obtain ⟨-, hbit, hst, enough, -, -⟩ := exec_eq_emit hexec hout
  exact ⟨hbit, hst, enough⟩

theorem heldPacket_bytes_length (r : Regs) : (heldPacket r).bytes.length = (heldPacket r).n := by
  simp [heldPacket]

/-- The verdict over the bytes, by clause (f) of the invariant. -/
theorem validate_eq_valid_iff (h : RegsInv P c r) :
    validate r = .valid ↔ xorBytes (heldPacket r).bytes = 0#8 := by
  have accumulated : xorBytes (heldPacket r).bytes = r.xacc := h.xacc_eq.symm
  rw [validate_eq_ite, accumulated]
  split_ifs with zero <;> simp [zero]

theorem ofNat_nbW_toNat {n : Nat} (h : n ≤ P.bufN) : (BitVec.ofNat P.nbW n).toNat = n := by
  rw [BitVec.toNat_ofNat, Nat.mod_eq_of_lt (h.trans_lt (bufN_lt_two_pow_nbW P))]

theorem ofNat_preW_toNat {n : Nat} (h : n ≤ 2 ^ P.preW - 1) : (BitVec.ofNat P.preW n).toNat = n := by
  have := Nat.two_pow_pos P.preW
  rw [BitVec.toNat_ofNat, Nat.mod_eq_of_lt (by omega)]

/-- Settles O45: the packet is what the registers held, and the invariant bounds them. -/
theorem emittedPacketFitsPins : Obligations.EmittedPacketFitsPins := by
  intro s t p v hinv hstep hout
  obtain ⟨-, ws, i, -, -, hexec⟩ := step_eq_next hstep
  obtain ⟨hready, -, hst, enough, rfl, rfl⟩ := exec_eq_emit hexec hout
  have hregs := hinv.regs_ok hready.2
  obtain ⟨hcount, hceiling⟩ := hregs.nbytes_le
  obtain ⟨-, hpre⟩ := hregs.inFrame_pre fun hseek => nomatch hst.symm.trans hseek
  refine ⟨enough, hcount, heldPacket_bytes_length _, hpre, validate_eq_valid_iff hregs, fun k => ⟨?_, ?_⟩⟩
  · rw [outPins_emit_pktN]
    exact ofNat_nbW_toNat (hcount.trans hceiling)
  · rw [outPins_emit_pktPreO]
    exact ofNat_preW_toNat hregs.pktPre_fits

end Sys2Proof.Machine
end

section
/-! SUPPORT. The transition table of R104 (44_port_operations.md section 5), row by row, is `StepBit` under
the invariant. -/

namespace Sys2Proof.Machine

variable {P : Params} {c : Cfg} {b : Bit} {v : Bool} {r r' : Regs} {o : StepOutcome}

/-- Every row that applies is what `StepBit` answers. The invariant gives row T10 its free cell, and rows
T13 and T14 the cells they read. -/
theorem stepBit_of_row (h : RegsInv P c r) (hrow : Row P c b r r' o) : stepBit P c b r = .ok (r', o) := by
  obtain ⟨hcount, hceiling⟩ := h.nbytes_le
  have inBuffer : r.nbytes ≤ P.bufN := hcount.trans hceiling
  cases hrow with
  | t4 _ hst => rw [stepBit_invalid, raise, inFrame_eq_decide, hst]; rfl
  | t5 _ hst =>
    rw [stepBit_invalid, raise, inFrame_eq_decide]
    obtain hst | hst := hst <;> rw [hst] <;> rfl
  | t6 _ hst => exact stepBit_one_seek hst
  | t7 _ hst enough => rw [stepBit_zero_seek hst, zeroInSeek_of_le enough]
  | t8 _ hst few => rw [stepBit_zero_seek hst, zeroInSeek_of_lt few]
  | t9 _ _ v hv hst few =>
    subst hv
    rw [stepBit_data v hst, shiftIn_of_lt few, shiftBit]
  | t10 _ _ v hv hst seven =>
    subst hv
    rw [stepBit_data v hst, shiftIn_of_eq_seven seven, completeByte_of_lt ((h.data_room hst).trans_le hceiling)]
  | t11 _ hst below => rw [stepBit_zero_stop hst, zeroSeparator_of_lt below]
  | t12 _ hst ceiling =>
    rw [stepBit_zero_stop hst, zeroSeparator_of_le ceiling.ge, raise, inFrame_of_stop hst]
  | t13 _ hst enough zero =>
    rw [stepBit_one_stop hst, oneSeparator_of_le enough, complete_of_le inBuffer, validate_eq_ite, if_pos zero]
  | t14 _ hst enough nonzero =>
    rw [stepBit_one_stop hst, oneSeparator_of_le enough, complete_of_le inBuffer, validate_eq_ite,
      if_neg nonzero]
  | t15 _ hst few => rw [stepBit_one_stop hst, oneSeparator_of_lt few, raise, inFrame_of_stop hst]

theorem row_invalid (c : Cfg) (r : Regs) : ∃ r' o, Row P c .invalid r r' o := by
  rcases hst : r.st with _ | _ | _
  · exact ⟨_, _, .t4 r hst⟩
  · exact ⟨_, _, .t5 r (.inl hst)⟩
  · exact ⟨_, _, .t5 r (.inr hst)⟩

theorem row_data (v : Bool) (hst : r.st = .data) : ∃ r' o, Row P c (if v then .one else .zero) r r' o := by
  by_cases few : r.bitcnt < 7
  · exact ⟨_, _, .t9 r _ v rfl hst few⟩
  · exact ⟨_, _, .t10 r _ v rfl hst (by bv_omega)⟩

theorem row_one (c : Cfg) (r : Regs) : ∃ r' o, Row P c .one r r' o := by
  rcases hst : r.st with _ | _ | _
  · exact ⟨_, _, .t6 r hst⟩
  · exact row_data true hst
  · obtain few | enough := Nat.lt_or_ge r.nbytes 3
    · exact ⟨_, _, .t15 r hst few⟩
    · by_cases zero : r.xacc = 0#8
      · exact ⟨_, _, .t13 r hst enough zero⟩
      · exact ⟨_, _, .t14 r hst enough zero⟩

/-- The invariant excludes a byte count above the ceiling, for which the table has no row. -/
theorem row_zero (h : RegsInv P c r) : ∃ r' o, Row P c .zero r r' o := by
  rcases hst : r.st with _ | _ | _
  · obtain few | enough := Nat.lt_or_ge r.pcount c.minPreambleBits
    · exact ⟨_, _, .t8 r hst few⟩
    · exact ⟨_, _, .t7 r hst enough⟩
  · exact row_data false hst
  · obtain below | ceiling := h.nbytes_le.1.lt_or_eq
    · exact ⟨_, _, .t11 r hst below⟩
    · exact ⟨_, _, .t12 r hst ceiling⟩

theorem row_exists (b : Bit) (h : RegsInv P c r) : ∃ r' o, Row P c b r r' o := by
  cases b with
  | invalid => exact row_invalid c r
  | one => exact row_one c r
  | zero => exact row_zero h

/-- Settles O28: a row applies, and every one that does is the answer of `StepBit`, hence of the operation. -/
theorem transitionTableIsTheMachine : Obligations.TransitionTableIsTheMachine := by
  intro s i b hinv hreset hbit
  have hregs := hinv.regs_ok hreset
  have answer : ∀ r o, Row s.par s.cfg b s.regs r o → exec i s = .next (s.after r o) := fun r o hrow =>
    exec_of_stepBit ⟨hinv.cfg_ok, hreset⟩ hbit (stepBit_of_row hregs hrow)
  obtain ⟨r, o, hrow⟩ := row_exists b hregs
  exact ⟨⟨r, o, hrow, answer r o hrow⟩, answer⟩

end Sys2Proof.Machine
end

section
/-! SUPPORT. What an operation leaves unchanged in the registers (42_assembler.md section 2,
41_synchronizer.md section 4): when a byte completes, and when none does. -/

namespace Sys2Proof.Machine

variable {P : Params} {c : Cfg} {b : Bit} {r r' : Regs}

/-- Settles O42: the eighth bit writes the one cell `nbytes`, and read after write gives the rest. -/
theorem completedByteStoreFrame : Obligations.CompletedByteStoreFrame := by
  intro s t i v hinv hbit hst hseven hexec
  obtain ⟨hready, r, o, hstep, rfl⟩ := exec_eq_next_of_bitOf hbit hexec
  rw [stepBit_data v hst, shiftIn_of_eq_seven hseven] at hstep
  obtain ⟨-, -, rfl⟩ := completeByte_eq_ok hstep
  have hwf := (hinv.regs_ok hready.2).buf_wf
  exact ⟨Memory.read_write_same hwf _ _, fun a ha => Memory.read_write_other ha _, rfl, rfl, rfl, rfl, rfl, rfl⟩

/-- What stays from `r` to `r'` when no byte completes and nothing is reported; `start` says whether the
preamble length may be written. -/
structure PacketKept (start : Prop) (r r' : Regs) : Prop where
  buf : r'.buf = r.buf
  nbytes : r'.nbytes = r.nbytes
  xacc : r'.xacc = r.xacc
  held : r.st ≠ .data → r'.sreg = r.sreg ∧ r'.bitcnt = r.bitcnt
  preamble : r.st ≠ .seek → r'.pktPre = r.pktPre ∧ r'.pcount = r.pcount
  pktPre : ¬ start → r'.pktPre = r.pktPre

theorem packetKept_refl (start : Prop) (r : Regs) : PacketKept start r r :=
  ⟨rfl, rfl, rfl, fun _ => ⟨rfl, rfl⟩, fun _ => ⟨rfl, rfl⟩, fun _ => rfl⟩

theorem packetKept_zeroInSeek (hst : r.st = .seek) : PacketKept True r (zeroInSeek c r) := by
  obtain few | enough := Nat.lt_or_ge r.pcount c.minPreambleBits
  · rw [zeroInSeek_of_lt few]
    exact ⟨rfl, rfl, rfl, fun _ => ⟨rfl, rfl⟩, fun frame => absurd hst frame, fun _ => rfl⟩
  · rw [zeroInSeek_of_le enough]
    exact ⟨rfl, rfl, rfl, fun _ => ⟨rfl, rfl⟩, fun frame => absurd hst frame, fun start => absurd trivial start⟩

/-- The bits that report nothing and complete no byte: those in `SEEK`, the first seven of a byte, and a
`Zero` separator. -/
theorem stepBit_keeps_packet (h : stepBit P c b r = .ok (r', .none)) (hbyte : ¬ (r.st = .data ∧ r.bitcnt = 7)) :
    PacketKept (b = .zero) r r' := by
  obtain ⟨-, -, ho⟩ | ⟨-, hst, rfl, -⟩ | ⟨rfl, hst, rfl, -⟩ | ⟨v, -, hst, hshift⟩ | ⟨-, -, hsep⟩ | ⟨-, -, hsep⟩ :=
    stepBit_eq_ok h
  · cases ho
  · exact ⟨rfl, rfl, rfl, fun _ => ⟨rfl, rfl⟩, fun frame => absurd hst frame, fun _ => rfl⟩
  · simpa using packetKept_zeroInSeek (c := c) hst
  · obtain ⟨-, rfl, -⟩ | ⟨seven, -⟩ := shiftIn_eq_ok hshift
    · exact ⟨rfl, rfl, rfl, fun outside => absurd hst outside, fun _ => ⟨rfl, rfl⟩, fun _ => rfl⟩
    · exact absurd ⟨hst, seven⟩ hbyte
  · obtain ⟨-, opens⟩ | ⟨-, raises⟩ := zeroSeparator_cases c r
    · cases hsep.trans opens
      exact ⟨rfl, rfl, rfl, fun _ => ⟨rfl, rfl⟩, fun _ => ⟨rfl, rfl⟩, fun _ => rfl⟩
    · cases hsep.trans raises
  · obtain ⟨-, hpacket⟩ | ⟨-, -, ho⟩ := oneSeparator_eq_ok hsep
    · obtain ⟨-, -, ho⟩ := complete_eq_ok hpacket
      cases ho
    · cases ho

/-- Settles O43: the operation is `NOP` or carries a bit, and either keeps the packet's registers; the rest
of the state no operation but `RST` writes. -/
theorem nonStoringFrame : Obligations.NonStoringFrame := by
  intro s t i hexec hrst hidle hout hbyte
  have kept : ∃ r o, t = s.after r o ∧ PacketKept (bitOf s.cfg i = some .zero) s.regs r := by
    obtain ⟨rfl, -⟩ | ⟨rfl, -⟩ | ⟨-, -, rfl⟩ | ⟨b, r, o, hbit, -, hstep, rfl⟩ := exec_eq_next hexec
    · exact absurd rfl hrst
    · exact absurd rfl hidle
    · exact ⟨_, _, rfl, packetKept_refl _ _⟩
    · obtain rfl : o = .none := by simpa using hout
      have hnop : i ≠ .nop := by rintro rfl; cases hbit
      have hkept := stepBit_keeps_packet hstep fun ⟨hst, seven⟩ => hbyte ⟨hst, seven, hnop⟩
      exact ⟨_, _, rfl, by simpa [hbit] using hkept⟩
  obtain ⟨r, o, rfl, hkept⟩ := kept
  exact ⟨fun a => congrArg (Memory.read · a) hkept.buf, hkept.nbytes, hkept.xacc, hkept.held, hkept.preamble,
    hkept.pktPre, rfl, rfl, rfl, rfl⟩

end Sys2Proof.Machine
end

section
/-! SUPPORT. Runs of operations (44_port_operations.md R100): how they compose, and that neither the words still
to come nor the outcomes so far have a part in them (20_memory.md R39). -/

namespace Sys2Proof.Machine

variable {s t : State} {i : Instr} {is : List Instr}

theorem runOps_cons_of_next (h : exec i s = .next t) (is : List Instr) : runOps (i :: is) s = runOps is t := by
  simp only [runOps, h]

theorem runOps_cons_eq_next {u : State} (h : runOps (i :: is) s = .next u) :
    ∃ t, exec i s = .next t ∧ runOps is t = .next u := by
  simp only [runOps] at h
  split at h
  · exact ⟨_, ‹_›, h⟩
  · cases h
  · cases h

theorem runOps_append_of_next (h : runOps is s = .next t) (js : List Instr) :
    runOps (is ++ js) s = runOps js t := by
  rw [runOps_append, h]

theorem runOps_singleton (i : Instr) (s : State) : runOps [i] s = exec i s := by
  simp only [runOps]
  split <;> simp [*]

/-- A run leaves the input as it is (R39). -/
theorem runOps_input (h : runOps is s = .next t) : t.input = s.input := by
  induction is generalizing s with
  | nil => cases h; rfl
  | cons i is ih =>
    obtain ⟨u, hexec, hrun⟩ := runOps_cons_eq_next h
    obtain ⟨-, -, hin, -, -⟩ := exec_frame hexec
    rw [ih hrun, hin]

/-- From a state that meets the invariant a run comes to its end (R110). -/
theorem runOps_total (is : List Instr) (h : s.Inv) (hreset : s.resetDone = true) :
    ∃ t, runOps is s = .next t := by
  induction is generalizing s with
  | nil => exact ⟨s, rfl⟩
  | cons i is ih =>
    obtain ⟨u, hexec⟩ := exec_total i h hreset
    obtain ⟨-, -, -, hkept, -⟩ := exec_frame hexec
    rw [runOps_cons_of_next hexec]
    exact ih (exec_keeps_inv h hexec) (hkept hreset)

/-- The same machine with other words to come, and with the outcomes `os` before its own. -/
def State.withStreams (ws : List InWord) (os : List StepOutcome) (s : State) : State :=
  { s with input := ws, output := os ++ s.output }

/-- The next state of an answer changed by `g`; a stop stays. -/
def mapNext (g : State → State) : Host.Outcome State Fault Refusal → Host.Outcome State Fault Refusal
  | .next t => .next (g t)
  | .fault e => .fault e
  | .refused e => .refused e

variable {ws : List InWord} {os : List StepOutcome}

theorem operate_withStreams (s : State) (f : Regs → StepResult) :
    operate (s.withStreams ws os) f = mapNext (State.withStreams ws os) (operate s f) := by
  by_cases hcfg : cfgOk s.par s.cfg = true
  · by_cases hreset : s.resetDone = true
    · cases hf : f s.regs <;>
        simp [operate, State.withStreams, mapNext, State.commit, hcfg, hreset, hf]
    · simp [operate, State.withStreams, mapNext, hcfg, hreset]
  · simp [operate, State.withStreams, mapNext, hcfg]

/-- No operation reads the streams, and each adds its outcome at the end. -/
theorem exec_withStreams (i : Instr) (s : State) :
    exec i (s.withStreams ws os) = mapNext (State.withStreams ws os) (exec i s) := by
  cases hbit : bitOf s.cfg i with
  | some b =>
    have hbit' : bitOf (s.withStreams ws os).cfg i = some b := hbit
    rw [exec_of_bitOf hbit, exec_of_bitOf hbit']
    exact operate_withStreams s _
  | none =>
    cases i with
    | rst =>
      by_cases hcfg : cfgOk s.par s.cfg = true <;>
        simp [exec_rst_eq, operateReset, State.withStreams, mapNext, State.commit, hcfg]
    | idle =>
      rw [exec_idle_eq, exec_idle_eq]
      exact operate_withStreams s _
    | nop =>
      rw [exec_nop_eq, exec_nop_eq]
      exact operate_withStreams s _
    | sym | b0 | b1 | bx | bxRsv => cases hbit

theorem runOps_withStreams (is : List Instr) (s : State) :
    runOps is (s.withStreams ws os) = mapNext (State.withStreams ws os) (runOps is s) := by
  induction is generalizing s with
  | nil => rfl
  | cons i is ih =>
    simp only [runOps, exec_withStreams]
    cases exec i s with
    | next t => exact ih t
    | fault e => rfl
    | refused e => rfl

end Sys2Proof.Machine
end

section
/-! SUPPORT. Runs of the machine: over the canonical words of operations (44_port_operations.md section 1), and
of several decoders (60_exceptions.md R118). -/

namespace Sys2Proof.Machine

variable {s t : State} {n k : Nat} {ks : List Nat} {ls ls' : Lines}

section HostRun
variable {M : Host.Core} {s t : M.State}

theorem hostRun_succ_of_next (h : M.step s = .next t) : M.run (n + 1) s = M.run n t := by
  rw [Host.Core.run, h]

theorem hostRun_succ_of_fault {e : M.Fault} (h : M.step s = .fault e) : M.run (n + 1) s = .fault e := by
  rw [Host.Core.run, h]

theorem hostRun_succ_of_refused {e : M.Refusal} (h : M.step s = .refused e) :
    M.run (n + 1) s = .refused e := by
  rw [Host.Core.run, h]

end HostRun

/-- The host's run of the core, with the model's own names for its types. -/
def coreRun (n : Nat) (s : State) : Host.Outcome State Fault Refusal := Host.Core.run Sys2Proof.core n s

theorem coreRun_succ_of_next (h : step s = .next t) : coreRun (n + 1) s = coreRun n t :=
  hostRun_succ_of_next h

theorem coreRun_succ_of_fault {e : Fault} (h : step s = .fault e) : coreRun (n + 1) s = .fault e :=
  hostRun_succ_of_fault h

theorem coreRun_succ_of_refused {e : Refusal} (h : step s = .refused e) : coreRun (n + 1) s = .refused e :=
  hostRun_succ_of_refused h

theorem coreRun_succ_eq_next {u : State} (h : coreRun (n + 1) s = .next u) :
    ∃ t, step s = .next t ∧ coreRun n t = .next u := by
  cases hstep : step s with
  | next t => exact ⟨t, rfl, (coreRun_succ_of_next hstep).symm.trans h⟩
  | fault e => cases (coreRun_succ_of_fault hstep).symm.trans h
  | refused e => cases (coreRun_succ_of_refused hstep).symm.trans h

/-- Each step takes the first word, which decodes to the operation that was encoded, and runs it; the words
that follow have no part in it. -/
theorem coreRun_encode (ops : List Instr) (hfits : ∀ i ∈ ops, i.wellFormed s.par = true) :
    coreRun ops.length (s.withStreams (ops.map (encode s.par) ++ s.input) []) = runOps ops s := by
  induction ops generalizing s with
  | nil => rfl
  | cons i ops ih =>
    obtain ⟨hi, hops⟩ := List.forall_mem_cons.1 hfits
    have hstep : step (s.withStreams ((i :: ops).map (encode s.par) ++ s.input) []) =
        exec i (s.withStreams (ops.map (encode s.par) ++ s.input) []) :=
      step_of_decode rfl (decode_encode hi)
    rw [exec_withStreams] at hstep
    rw [List.length_cons, runOps]
    cases hexec : exec i s with
    | next t =>
      obtain ⟨-, hpar, hin, -, -⟩ := exec_frame hexec
      have later := ih (s := t) (by rwa [hpar])
      rw [hpar, hin] at later
      rw [hexec] at hstep
      exact (coreRun_succ_of_next hstep).trans later
    | fault e => exact coreRun_succ_of_fault (by rw [hstep, hexec]; rfl)
    | refused e => exact coreRun_succ_of_refused (by rw [hstep, hexec]; rfl)

/-- Settles O30: by induction over the operations, one step an operation. -/
theorem machineRunIsOperationRun : Obligations.MachineRunIsOperationRun :=
  fun s ops rest hfits => coreRun_encode (s := { s with input := rest }) ops hfits

theorem linesStep_of_none (h : ls[k]? = none) : Lines.step k ls = .next ls := by
  simp only [Lines.step, h]

/-- The line that steps is written, no other. -/
theorem linesStep_frame (h : Lines.step k ls = .next ls') :
    ls'.length = ls.length ∧ ∀ j, j ≠ k → ls'[j]? = ls[j]? := by
  obtain ⟨s, t, -, -, rfl⟩ | ⟨-, rfl⟩ := linesStep_eq_next h
  · exact ⟨List.length_set, fun j hj => List.getElem?_set_ne hj.symm⟩
  · exact ⟨rfl, fun _ _ => rfl⟩

theorem getElem?_set_line (h : ls[k]? = some s) (t : State) : (ls.set k t)[k]? = some t := by
  obtain ⟨hk, -⟩ := List.getElem?_eq_some_iff.1 h
  exact List.getElem?_set_self hk

/-- Settles O55: a line that is there steps as its decoder and is put back in its place. -/
theorem lineStepsAsOneDecoder : Obligations.LineStepsAsOneDecoder := by
  refine fun ls k => ⟨fun ls' => linesStep_frame, fun s hs => ⟨fun t hstep => ?_, fun e hstep => ?_,
    fun e hstep => ?_⟩, linesStep_of_none⟩
  · exact ⟨ls.set k t, by rw [linesStep_of_line hs, hstep], getElem?_set_line hs t⟩
  · rw [linesStep_of_line hs, hstep]
  · rw [linesStep_of_line hs, hstep]

theorem linesRun_cons_eq_next (h : Lines.run (k :: ks) ls = .next ls') :
    ∃ ls₁, Lines.step k ls = .next ls₁ ∧ Lines.run ks ls₁ = .next ls' := by
  rw [Lines.run] at h
  split at h
  · exact ⟨_, ‹_›, h⟩
  · cases h
  · cases h

theorem linesRun_cons_of_next {ls₁ : Lines} (h : Lines.step k ls = .next ls₁) :
    Lines.run (k :: ks) ls = Lines.run ks ls₁ := by
  rw [Lines.run, h]

/-- In a run of the system each line makes the steps the schedule gives it, as its decoder alone. -/
theorem linesRun_projects (h : Lines.run ks ls = .next ls') : ls'.length = ls.length ∧
    ∀ (j : Nat) (s : State), ls[j]? = some s → ∃ t, coreRun (ks.count j) s = .next t ∧ ls'[j]? = some t := by
  induction ks generalizing ls with
  | nil => cases h; exact ⟨rfl, fun j s hs => ⟨s, rfl, hs⟩⟩
  | cons k ks ih =>
    obtain ⟨ls₁, hstep, hrun⟩ := linesRun_cons_eq_next h
    obtain ⟨hlength, hothers⟩ := linesStep_frame hstep
    obtain ⟨hlength', hlines⟩ := ih hrun
    refine ⟨hlength'.trans hlength, fun j s hs => ?_⟩
    obtain rfl | hj := eq_or_ne j k
    · obtain ⟨s', u, hs', hsu, rfl⟩ | ⟨hnone, -⟩ := linesStep_eq_next hstep
      · cases hs.symm.trans hs'
        rw [List.count_cons_self, coreRun_succ_of_next hsu]
        exact hlines j u (getElem?_set_line hs u)
      · cases hs.symm.trans hnone
    · rw [List.count_cons_of_ne hj.symm]
      exact hlines j s ((hothers j hj).trans hs)

/-- If each line alone completes its share of the schedule, the system completes it. -/
theorem linesRun_total
    (h : ∀ (j : Nat) (s : State), ls[j]? = some s → ∃ t, coreRun (ks.count j) s = .next t) :
    ∃ ls', Lines.run ks ls = .next ls' := by
  induction ks generalizing ls with
  | nil => exact ⟨ls, rfl⟩
  | cons k ks ih =>
    have others : ∀ j s, j ≠ k → ls[j]? = some s → ∃ t, coreRun (ks.count j) s = .next t := fun j s hj hs => by
      simpa [List.count_cons_of_ne hj.symm] using h j s hs
    cases hk : ls[k]? with
    | none =>
      rw [linesRun_cons_of_next (linesStep_of_none hk)]
      exact ih fun j s hs => others j s (by rintro rfl; cases hs.symm.trans hk) hs
    | some s =>
      obtain ⟨t, ht⟩ := h k s hk
      rw [List.count_cons_self] at ht
      obtain ⟨u, hsu, hut⟩ := coreRun_succ_eq_next ht
      have hstep : Lines.step k ls = .next (ls.set k u) := by rw [linesStep_of_line hk, hsu]
      rw [linesRun_cons_of_next hstep]
      refine ih fun j s' hs' => ?_
      obtain rfl | hj := eq_or_ne j k
      · cases (getElem?_set_line hk u).symm.trans hs'
        exact ⟨t, hut⟩
      · exact others j s' hj ((List.getElem?_set_ne hj.symm).symm.trans hs')

/-- Settles O56: by induction over the schedule, in both directions. -/
theorem interleavedLinesRunAsAlone : Obligations.InterleavedLinesRunAsAlone :=
  fun _ _ => ⟨fun _ => linesRun_projects, linesRun_total⟩

end Sys2Proof.Machine
end

section
/-! SUPPORT. Lifting a bit-level program to symbols (30_encoding.md section 10): under the suggested durations
an operation and its lift carry the same bit. -/

namespace Sys2Proof.Machine

variable {s : State} {c : Cfg}

/-- The nominal cells classify as themselves, and `SX` lies between the bands. -/
theorem bitOf_lift (h : SuggestedDurations c) (i : Instr) : bitOf c (lift i) = bitOf c i := by
  have zero : classify c 100 100 = .zero :=
    classify_eq_zero_iff.2 ((isZero_of_suggested h).2 (by decide))
  have one : classify c 58 58 = .one :=
    classify_eq_one_iff.2 ⟨by rw [isZero_of_suggested h]; decide, (isOne_of_suggested h).2 (by decide)⟩
  have invalid : classify c 80 80 = .invalid :=
    classify_eq_invalid_iff.2 ⟨by rw [isZero_of_suggested h]; decide, by rw [isOne_of_suggested h]; decide⟩
  cases i with
  | b0 => exact congrArg some zero
  | b1 => exact congrArg some one
  | bx | bxRsv => exact congrArg some invalid
  | rst | idle | sym | nop => rfl

/-- The port-level operations are their own lift. -/
theorem lift_of_bitOf_none {i : Instr} (h : bitOf c i = none) : lift i = i := by
  cases i with
  | rst | idle | sym | nop => rfl
  | b0 | b1 | bx | bxRsv => cases h

theorem exec_lift (h : SuggestedDurations s.cfg) (i : Instr) : exec (lift i) s = exec i s := by
  cases hbit : bitOf s.cfg i with
  | some b => rw [exec_of_bitOf hbit, exec_of_bitOf ((bitOf_lift h i).trans hbit)]
  | none => rw [lift_of_bitOf_none hbit]

/-- No operation writes the configuration, so each of a program agrees with its lift. -/
theorem runOps_lift (h : SuggestedDurations s.cfg) (ops : List Instr) :
    runOps (ops.map lift) s = runOps ops s := by
  induction ops generalizing s with
  | nil => rfl
  | cons i ops ih =>
    simp only [List.map_cons, runOps, exec_lift h]
    cases hexec : exec i s with
    | next t =>
      obtain ⟨hcfg, -⟩ := exec_frame hexec
      exact ih (hcfg ▸ h)
    | fault e => rfl
    | refused e => rfl

/-- Settles O54: by induction over the program. -/
theorem liftedProgramsAgree : Obligations.LiftedProgramsAgree :=
  fun _ ops hzH hzL hoH hoL hm => runOps_lift ⟨hzH, hzL, hoH, hoL, hm⟩ ops

end Sys2Proof.Machine
end

section
/-! SUPPORT. Resynchronisation (41_synchronizer.md R85): what follows `RESET_STATE` depends on nothing before
it. -/

namespace Sys2Proof.Machine

variable {s u : State} {z : Instr}

/-- An operation that leaves `RESET_STATE` in a ready state adds its outcome and changes nothing else. -/
theorem exec_eq_after_reset (hready : s.ready) (hexec : exec z s = .next u) (hregs : u.regs = Regs.reset) :
    ∃ o, u = s.after Regs.reset o := by
  obtain ⟨-, -, rfl⟩ | ⟨-, -, rfl⟩ | ⟨-, -, rfl⟩ | ⟨b, r, o, -, -, -, rfl⟩ := exec_eq_next hexec
  · exact ⟨.none, by simp [State.after, hready.2]⟩
  · exact ⟨_, rfl⟩
  · exact ⟨.none, by rw [← hregs]; rfl⟩
  · exact ⟨o, by rw [← hregs]; rfl⟩

theorem exec_rst_of_ready (h : s.ready) : exec .rst s = .next (s.after Regs.reset .none) := by
  rw [exec_rst_of_cfgOk h.1]
  simp [State.after, h.2]

/-- The machine in `RESET_STATE` with no outcome so far. -/
def State.restarted (s : State) : State := { s with regs := Regs.reset, output := [] }

theorem restarted_inv (h : cfgOk s.par s.cfg = true) : s.restarted.Inv := ⟨h, fun _ => regsInv_reset h⟩

/-- What came before `RESET_STATE` shows in the output stream only, before all that follows. -/
theorem after_reset_eq_withStreams (s : State) (o : StepOutcome) :
    s.after Regs.reset o = s.restarted.withStreams s.input (s.output ++ [o]) := by
  simp [State.after, State.withStreams, State.restarted]

/-- From `RESET_STATE` a run comes to its end, and the outcomes before it only stand before its own. -/
theorem runOps_after_reset (hready : s.ready) (o : StepOutcome) (T : List Instr) : ∃ t : State,
    runOps T s.restarted = .next t ∧
    runOps T (s.after Regs.reset o) = .next { t with output := s.output ++ o :: t.output } := by
  obtain ⟨t, hrun⟩ := runOps_total T (restarted_inv hready.1) hready.2
  have hin : s.input = t.input := (runOps_input hrun).symm
  refine ⟨t, hrun, ?_⟩
  rw [after_reset_eq_withStreams, runOps_withStreams, hrun]
  simp [mapNext, State.withStreams, hin]

/-- Settles O48: the operation leaves `RESET_STATE` with one outcome more, from which the run forgets the
past; and each of the operations named leaves it. -/
theorem resynchronisationForgetsThePast : Obligations.ResynchronisationForgetsThePast := by
  refine fun s z hready => ⟨fun u T hexec hregs => ?_, fun hz => ?_, invalidBitAbortsAnywhere s z hready,
    fun hbit hst hroom => ?_, fun hbit hst hceiling => ?_⟩
  · obtain ⟨o, rfl⟩ := exec_eq_after_reset hready hexec hregs
    obtain ⟨t, hfresh, hrun⟩ := runOps_after_reset hready o T
    exact ⟨t, o, rfl, hfresh, (runOps_cons_of_next hexec T).trans hrun⟩
  · obtain rfl | rfl := hz
    · exact exec_rst_of_ready hready
    · exact exec_idle_of_ready hready
  · obtain few | enough := Nat.lt_or_ge s.regs.nbytes 3
    · exact ⟨_, earlyOneViolatesFraming s z hready hbit hst few⟩
    · exact ⟨_, endBitEmitsPacket s z hready hbit hst enough hroom⟩
  · exact (zeroSeparatorAtCeilingAborts s z hready hst hceiling).1 hbit

end Sys2Proof.Machine
end

section
/-! SUPPORT. Operations that report nothing, and the preamble (41_synchronizer.md section 6). -/

namespace Sys2Proof.Machine

variable {s t : State} {i : Instr} {is : List Instr} {b : Bit} {r : Regs} {n : Nat}

/-- `s` after `n` operations that report nothing and leave the registers `r`. -/
def State.quiet (s : State) (n : Nat) (r : Regs) : State :=
  { s with regs := r, output := s.output ++ List.replicate n .none }

@[simp] theorem quiet_par (s : State) (n : Nat) (r : Regs) : (s.quiet n r).par = s.par := rfl
@[simp] theorem quiet_cfg (s : State) (n : Nat) (r : Regs) : (s.quiet n r).cfg = s.cfg := rfl
@[simp] theorem quiet_regs (s : State) (n : Nat) (r : Regs) : (s.quiet n r).regs = r := rfl

theorem quiet_zero (s : State) : s.quiet 0 s.regs = s := by
  simp [State.quiet]

@[simp] theorem quiet_quiet (s : State) (m n : Nat) (r r' : Regs) :
    (s.quiet m r).quiet n r' = s.quiet (m + n) r' := by
  simp [State.quiet]

theorem exec_eq_quiet (hready : s.ready) (hbit : bitOf s.cfg i = some b)
    (hstep : stepBit s.par s.cfg b s.regs = .ok (r, .none)) : exec i s = .next (s.quiet 1 r) :=
  exec_of_stepBit hready hbit hstep

/-- One more bit counted, up to the counter's maximum. -/
theorem satInc_min (N v : Nat) : satInc N v = min (v + 1) (2 ^ N - 1) := by
  unfold satInc
  split <;> omega

/-- The count of `k` ones from a count within its width, up to its maximum (R79). -/
theorem runOps_ones (k : Nat) (hready : s.ready) (hst : s.regs.st = .seek)
    (hfits : s.regs.pcount ≤ 2 ^ s.par.preW - 1) : runOps (ones k) s =
      .next (s.quiet k { s.regs with pcount := min (s.regs.pcount + k) (2 ^ s.par.preW - 1) }) := by
  induction k generalizing s with
  | zero =>
    rw [add_zero, Nat.min_eq_left hfits, quiet_zero]
    rfl
  | succ k ih =>
    have first : exec .b1 s = .next (s.quiet 1 (countOne s.par s.regs)) :=
      exec_eq_quiet hready rfl (stepBit_one_seek hst)
    have rest := ih (s := s.quiet 1 (countOne s.par s.regs)) hready hst (satInc_le _ _)
    have count : min (satInc s.par.preW s.regs.pcount + k) (2 ^ s.par.preW - 1) =
        min (s.regs.pcount + (k + 1)) (2 ^ s.par.preW - 1) := by
      rw [satInc_min]
      omega
    rw [ones, List.replicate_succ, runOps_cons_of_next first, ← ones, rest]
    simp only [quiet_regs, quiet_par, quiet_quiet, countOne_pcount, count, add_comm 1 k]
    rfl

/-- A valid minimum is one the counter can reach (R36, clause (b)), so that saturation does not hide it. -/
theorem minPreamble_le_min_iff (hready : s.ready) (k : Nat) :
    s.cfg.minPreambleBits ≤ min k (2 ^ s.par.preW - 1) ↔ s.cfg.minPreambleBits ≤ k := by
  obtain ⟨-, ⟨-, reachable⟩, -⟩ := (cfgOk_iff s.par s.cfg).1 hready.1
  omega

/-- The registers of a frame that has just opened after `k` ones. -/
def openedRegs (P : Params) (k : Nat) : Regs :=
  { Regs.reset with st := .data, pktPre := min k (2 ^ P.preW - 1) }

/-- The registers of a decoder in `SEEK` that has counted `k` ones. -/
def countedRegs (P : Params) (k : Nat) : Regs := { Regs.reset with pcount := min k (2 ^ P.preW - 1) }

theorem runOps_ones_reset (k : Nat) (hready : s.ready) (hreset : s.regs = Regs.reset) : runOps (ones k) s =
    .next (s.quiet k (countedRegs s.par k)) := by
  have hrun := runOps_ones k hready (by rw [hreset]; rfl) (by rw [hreset]; exact Nat.zero_le _)
  rw [hrun, hreset]
  simp [countedRegs, Regs.reset]

/-- The `Zero` after the ones opens the frame exactly when they are enough (R80, R81). -/
theorem runOps_preamble (k : Nat) (hready : s.ready) (hreset : s.regs = Regs.reset) :
    runOps (ones k ++ [.b0]) s = .next (s.quiet (k + 1)
      (if s.cfg.minPreambleBits ≤ k then openedRegs s.par k else Regs.reset)) := by
  have hzero : zeroInSeek s.cfg (countedRegs s.par k) =
      if s.cfg.minPreambleBits ≤ k then openedRegs s.par k else Regs.reset := by
    split_ifs with enough
    · exact zeroInSeek_of_le ((minPreamble_le_min_iff hready k).2 enough)
    · exact zeroInSeek_of_lt (Nat.not_le.1 fun h => enough ((minPreamble_le_min_iff hready k).1 h))
  have hstart : exec .b0 (s.quiet k (countedRegs s.par k)) =
      .next ((s.quiet k (countedRegs s.par k)).quiet 1 (zeroInSeek s.cfg (countedRegs s.par k))) :=
    exec_eq_quiet hready rfl (stepBit_zero_seek rfl)
  rw [runOps_append_of_next (runOps_ones_reset k hready hreset), runOps_singleton, hstart, hzero, quiet_quiet]

/-- Settles O46: the ones are counted, and the `Zero` opens the frame or clears the count. -/
theorem preambleThreshold : Obligations.PreambleThreshold := fun _ k => runOps_preamble k

end Sys2Proof.Machine
end

section
/-! SUPPORT. The eight bits of a byte (42_assembler.md R90(a), 20_memory.md R43): after each of them the shift
register holds the bits that have arrived, which are the upper ones of the byte. -/

namespace Sys2Proof.Machine

variable {s : State} {r : Regs} {v : Bool} {n : BitVec 3}

theorem bitOf_bitOp (c : Cfg) (v : Bool) : bitOf c (bitOp v) = some (if v then .one else .zero) := by
  cases v <;> rfl

/-- The upper bits of `x` down to bit `k` are those down to bit `k + 1`, with bit `k` shifted in. -/
theorem shifted_ushiftRight (x : Byte) (k : Nat) : shifted (x >>> (k + 1)) (x.getLsbD k) = x >>> k := by
  refine BitVec.eq_of_toNat_eq ?_
  have hx := x.isLt
  have halves : x.toNat / 2 ^ (k + 1) = x.toNat / 2 ^ k / 2 := by rw [pow_succ, Nat.div_div_eq_div_mul]
  have small : x.toNat / 2 ^ k ≤ x.toNat := Nat.div_le_self _ _
  have bit : (x.getLsbD k).toNat = x.toNat / 2 ^ k % 2 := by
    rw [BitVec.getLsbD, Nat.testBit_eq_decide_div_mod_eq]
    obtain h | h := Nat.mod_two_eq_zero_or_one (x.toNat / 2 ^ k) <;> simp [h]
  rw [shifted_toNat, BitVec.toNat_ushiftRight, BitVec.toNat_ushiftRight, Nat.shiftRight_eq_div_pow,
    Nat.shiftRight_eq_div_pow, halves, bit]
  generalize x.toNat / 2 ^ k = upper at small
  omega

/-- A data bit with fewer than seven held. -/
theorem exec_bitOp_of_lt (v : Bool) (hready : s.ready) (hst : s.regs.st = .data) (hfew : s.regs.bitcnt < 7) :
    exec (bitOp v) s = .next (s.quiet 1 (shiftBit v s.regs)) := by
  refine exec_eq_quiet hready (bitOf_bitOp s.cfg v) ?_
  rw [stepBit_data v hst, shiftIn_of_lt hfew]

/-- The registers `r` with byte `x` completed in place of the bits held (R87). -/
def storeRegs (x : Byte) (r : Regs) : Regs :=
  { r with
    buf := Memory.write r.buf r.nbytes x
    xacc := r.xacc ^^^ x
    nbytes := r.nbytes + 1
    sreg := 0#8
    bitcnt := 0#3
    st := .stop }

/-- A data bit with seven held and a cell free. -/
theorem exec_bitOp_of_eq_seven (v : Bool) (hready : s.ready) (hst : s.regs.st = .data)
    (hseven : s.regs.bitcnt = 7) (hfree : s.regs.nbytes < s.par.bufN) :
    exec (bitOp v) s = .next (s.quiet 1 (storeRegs (shifted s.regs.sreg v) s.regs)) := by
  refine exec_eq_quiet hready (bitOf_bitOp s.cfg v) ?_
  rw [stepBit_data v hst, shiftIn_of_eq_seven hseven, completeByte_of_lt hfree]
  rfl

/-- The operations of the bits of `x` from bit `k` downwards. -/
def bitsBelow (x : Byte) : Nat → List Instr
  | 0 => []
  | k + 1 => bitOp (x.getLsbD k) :: bitsBelow x k

theorem byteOps_eq_bitsBelow (x : Byte) : byteOps x = bitsBelow x 8 := rfl

theorem byteOps_length (x : Byte) : (byteOps x).length = 8 := rfl

/-- With the upper bits of `x` held down to bit `k + 1`, the rest complete it. -/
theorem runOps_bitsBelow (x : Byte) (k : Nat) (hk : k < 8) (hready : s.ready) (hst : s.regs.st = .data)
    (hheld : s.regs.bitcnt.toNat + k = 7) (hsreg : s.regs.sreg = x >>> (k + 1))
    (hfree : s.regs.nbytes < s.par.bufN) :
    runOps (bitsBelow x (k + 1)) s = .next (s.quiet (k + 1) (storeRegs x s.regs)) := by
  induction k generalizing s with
  | zero =>
    have hseven : s.regs.bitcnt = 7 := by bv_omega
    have hlast := exec_bitOp_of_eq_seven (x.getLsbD 0) hready hst hseven hfree
    rw [hsreg, shifted_ushiftRight, BitVec.ushiftRight_zero] at hlast
    rw [bitsBelow, runOps_cons_of_next hlast]
    rfl
  | succ k ih =>
    have hfew : s.regs.bitcnt < 7 := by bv_omega
    have hnext := exec_bitOp_of_lt (x.getLsbD (k + 1)) hready hst hfew
    have hcount : (s.regs.bitcnt + 1).toNat + k = 7 := by bv_omega
    have hrest := ih (s := s.quiet 1 (shiftBit (x.getLsbD (k + 1)) s.regs)) (by omega) hready hst hcount
      (by rw [quiet_regs, shiftBit_sreg, hsreg, shifted_ushiftRight]) hfree
    rw [bitsBelow, runOps_cons_of_next hnext, hrest, quiet_quiet, add_comm 1 (k + 1)]
    rfl

/-- From the start of a byte its eight bits complete it. -/
theorem runOps_byteOps (x : Byte) (hready : s.ready) (hst : s.regs.st = .data) (hbitcnt : s.regs.bitcnt = 0#3)
    (hsreg : s.regs.sreg = 0#8) (hfree : s.regs.nbytes < s.par.bufN) :
    runOps (byteOps x) s = .next (s.quiet 8 (storeRegs x s.regs)) := by
  have none_held : x >>> 8 = 0#8 := BitVec.ushiftRight_eq_zero le_rfl
  rw [byteOps_eq_bitsBelow]
  exact runOps_bitsBelow x 7 (by decide) hready hst (by rw [hbitcnt]; rfl) (hsreg.trans none_held.symm) hfree

/-- Settles O47: seven bits shift in and the eighth completes the byte; no bit is held before or after. -/
theorem byteArrivesMostSignificantFirst : Obligations.ByteArrivesMostSignificantFirst := by
  intro s x hready hst hbitcnt hsreg hfree
  rw [runOps_byteOps x hready hst hbitcnt hsreg hfree, storeRegs, ← hbitcnt, ← hsreg]
  rfl

end Sys2Proof.Machine
end

section
/-! SUPPORT. Frames (30_encoding.md R58, R66): the bytes of a frame arrive one after the other, with a `Zero`
between them, and the bit after the last one decides (42_assembler.md section 3, 43_checksum_emitter.md
section 5). -/

namespace Sys2Proof.Machine

variable {s : State} {r : Regs} {pre : Nat} {b : Byte} {bs cs : List Byte}

/-- The registers hold the preamble length `pre` and the completed bytes `bs`, and no bit of a further
byte. -/
structure Holding (pre : Nat) (bs : List Byte) (r : Regs) : Prop where
  pktPre : r.pktPre = pre
  sreg : r.sreg = 0#8
  bitcnt : r.bitcnt = 0#3
  nbytes : r.nbytes = bs.length
  xacc : r.xacc = xorBytes bs
  buf_wf : Memory.wf r.buf = true
  buf : (List.range bs.length).map (Memory.read r.buf) = bs

theorem holding_openedRegs (P : Params) (k : Nat) : Holding (min k (2 ^ P.preW - 1)) [] (openedRegs P k) :=
  ⟨rfl, rfl, rfl, rfl, rfl, rfl, rfl⟩

/-- A byte stored behind those held is the last of them. -/
theorem holding_storeRegs (h : Holding pre bs r) (b : Byte) : Holding pre (bs ++ [b]) (storeRegs b r) where
  pktPre := h.pktPre
  sreg := rfl
  bitcnt := rfl
  nbytes := by simp [storeRegs, h.nbytes]
  xacc := by simp [storeRegs, h.xacc, xorBytes_append, xorBytes]
  buf_wf := Memory.wf_write h.buf_wf _ _
  buf := by
    have before : (List.range bs.length).map (Memory.read (Memory.write r.buf bs.length b)) = bs := by
      rw [List.map_congr_left fun j hj => Memory.read_write_other (List.mem_range.1 hj).ne b, h.buf]
    simp [storeRegs, h.nbytes, List.range_succ, before, Memory.read_write_same h.buf_wf]

theorem holding_data (h : Holding pre bs r) : Holding pre bs { r with st := .data } :=
  { h with }

/-- The bytes of a frame with the `Zero` between each two, without the bit after the last (R58). -/
def separatedBytes : List Byte → List Instr
  | [] => []
  | [b] => byteOps b
  | b :: b' :: bs => byteOps b ++ .b0 :: separatedBytes (b' :: bs)

/-- The bit after the last byte of a frame is a `One`. -/
theorem frameBytes_eq (h : bs ≠ []) : frameBytes bs = separatedBytes bs ++ [.b1] := by
  induction bs with
  | nil => exact absurd rfl h
  | cons b bs ih =>
    cases bs with
    | nil => rfl
    | cons b' bs => rw [frameBytes, ih (by simp), separatedBytes, List.append_assoc, List.cons_append]

/-- Where a frame goes on, the bit after a byte is a `Zero`. -/
theorem frameBytes_append (hb : bs ≠ []) (hc : cs ≠ []) :
    frameBytes (bs ++ cs) = separatedBytes bs ++ .b0 :: frameBytes cs := by
  induction bs with
  | nil => exact absurd rfl hb
  | cons b bs ih =>
    cases bs with
    | nil =>
      obtain ⟨c, cs, rfl⟩ := List.exists_cons_of_ne_nil hc
      rfl
    | cons b' bs =>
      have rest := ih (by simp)
      simp only [List.cons_append] at rest ⊢
      rw [frameBytes, rest, separatedBytes, List.append_assoc, List.cons_append]

theorem separatedBytes_length (h : bs ≠ []) : (separatedBytes bs).length + 1 = 9 * bs.length := by
  induction bs with
  | nil => exact absurd rfl h
  | cons b bs ih =>
    cases bs with
    | nil => rfl
    | cons b' bs =>
      have rest := ih (by simp)
      simp only [separatedBytes, List.length_append, byteOps_length, List.length_cons] at rest ⊢
      omega

/-- A byte arrives behind those held, and the decoder waits for its separator. -/
theorem runOps_byteOps_holding (b : Byte) (hready : s.ready) (hheld : Holding pre bs s.regs)
    (hst : s.regs.st = .data) (hroom : bs.length < s.cfg.maxBytes) : ∃ r, Holding pre (bs ++ [b]) r ∧
      r.st = .stop ∧ runOps (byteOps b) s = .next (s.quiet 8 r) := by
  have hfree : s.regs.nbytes < s.par.bufN :=
    hheld.nbytes ▸ hroom.trans_le (ceiling_of_cfgOk hready.1).2
  exact ⟨storeRegs b s.regs, holding_storeRegs hheld b, rfl,
    runOps_byteOps b hready hst hheld.bitcnt hheld.sreg hfree⟩

/-- Bytes `cs` arrive behind the bytes `bs`, up to the ceiling, and nothing is reported. -/
theorem runOps_separatedBytes (hcs : cs ≠ []) (hready : s.ready) (hheld : Holding pre bs s.regs)
    (hst : s.regs.st = .data) (hroom : bs.length + cs.length ≤ s.cfg.maxBytes) : ∃ r,
      Holding pre (bs ++ cs) r ∧ r.st = .stop ∧
      runOps (separatedBytes cs) s = .next (s.quiet (separatedBytes cs).length r) := by
  induction cs generalizing bs s with
  | nil => exact absurd rfl hcs
  | cons c cs ih =>
    rw [List.length_cons] at hroom
    obtain ⟨r, hheld', hstop, hbyte⟩ := runOps_byteOps_holding c hready hheld hst (by omega)
    cases cs with
    | nil => exact ⟨r, hheld', hstop, hbyte⟩
    | cons c' cs =>
      have hbelow : r.nbytes < s.cfg.maxBytes := by
        rw [hheld'.nbytes]
        simp only [List.length_append, List.length_cons, List.length_nil] at hroom ⊢
        omega
      have hsep : exec .b0 (s.quiet 8 r) = .next ((s.quiet 8 r).quiet 1 { r with st := .data }) :=
        zeroSeparatorOpensNextByte (s.quiet 8 r) .b0 hready rfl hstop hbelow
      obtain ⟨r', hall, hstop', hrest⟩ := ih (s := (s.quiet 8 r).quiet 1 { r with st := .data }) (by simp)
        hready (holding_data hheld') rfl (by simp at hroom ⊢; omega)
      refine ⟨r', by simpa using hall, hstop', ?_⟩
      rw [separatedBytes, runOps_append_of_next hbyte, runOps_cons_of_next hsep, hrest]
      simp only [quiet_quiet, List.length_append, byteOps_length, List.length_cons]
      congr 2
      omega

/-- A frame of `bs` up to the bit after its last byte, from `RESET_STATE` and with enough preamble. -/
theorem runOps_preamble_separatedBytes {p : Nat} (hbs : bs ≠ []) (hready : s.ready) (hreset : s.regs = Regs.reset)
    (henough : s.cfg.minPreambleBits ≤ p) (hroom : bs.length ≤ s.cfg.maxBytes) : ∃ r,
      Holding (min p (2 ^ s.par.preW - 1)) bs r ∧ r.st = .stop ∧
      runOps (ones p ++ .b0 :: separatedBytes bs) s = .next (s.quiet (p + 9 * bs.length) r) := by
  have hopen := runOps_preamble p hready hreset
  rw [if_pos henough] at hopen
  obtain ⟨r, hheld, hstop, hrun⟩ := runOps_separatedBytes (s := s.quiet (p + 1) (openedRegs s.par p)) hbs hready
    (holding_openedRegs s.par p) rfl (by simpa using hroom)
  refine ⟨r, hheld, hstop, ?_⟩
  have hcount : p + 1 + (separatedBytes bs).length = p + 9 * bs.length := by
    have := separatedBytes_length hbs
    omega
  rw [List.append_cons, runOps_append_of_next hopen, hrun, quiet_quiet, hcount]

end Sys2Proof.Machine
end

section
/-! SUPPORT. What a whole frame reports (43_checksum_emitter.md section 5, 42_assembler.md section 3): the bit
after its last byte reports, and none before it. -/

namespace Sys2Proof.Machine

variable {s : State} {p : Nat} {bs : List Byte}

theorem frame_eq (p : Nat) (hbs : bs ≠ []) : frame p bs = ones p ++ .b0 :: separatedBytes bs ++ [.b1] := by
  rw [frame, frameBytes_eq hbs, List.append_assoc, List.cons_append]

/-- Two ways to write the state after operations that report nothing and one that leaves `RESET_STATE`. -/
theorem quiet_after_reset (hreset : s.regs = Regs.reset) (n : Nat) (r : Regs) (o : StepOutcome) :
    (s.quiet n r).after Regs.reset o = { s with output := s.output ++ List.replicate n .none ++ [o] } := by
  rw [← hreset]
  rfl

/-- Settles O50: with three bytes held the `One` after the last is the end bit, and the accumulator is their
exclusive or. -/
theorem frameVerdictIsExclusiveOr : Obligations.FrameVerdictIsExclusiveOr := by
  intro s p bs hready hreset henough hmin hroom
  have hbs : bs ≠ [] := by rintro rfl; simp at hmin
  obtain ⟨r, hheld, hstop, hrun⟩ := runOps_preamble_separatedBytes hbs hready hreset henough hroom
  have hend := endBitEmitsPacket (s.quiet (p + 9 * bs.length) r) .b1 hready rfl hstop
    (hheld.nbytes ▸ hmin) (hheld.nbytes ▸ hroom.trans (ceiling_of_cfgOk hready.1).2)
  rw [quiet_after_reset hreset, quiet_regs, hheld.nbytes, hheld.buf, hheld.pktPre, hheld.xacc] at hend
  rw [frame_eq p hbs, runOps_append_of_next hrun, runOps_singleton, hend]

/-- A packet's bytes with their checksum exclusive-or to 0. -/
theorem xorBytes_append_checksum (bs : List Byte) : xorBytes (bs ++ [xorBytes bs]) = 0#8 := by
  simp [xorBytes_append, xorBytes]

/-- Settles O49: a packet is the frame of its bytes and their checksum. -/
theorem wellFormedPacketIsEmittedValid : Obligations.WellFormedPacketIsEmittedValid := by
  intro s p a ds hready hreset henough hdata hroom
  have hlength : (a :: ds ++ [xorBytes (a :: ds)]).length = ds.length + 2 := by simp
  have hframe := frameVerdictIsExclusiveOr s p (a :: ds ++ [xorBytes (a :: ds)]) hready hreset henough
    (by omega) (by omega)
  rwa [hlength, if_pos (xorBytes_append_checksum (a :: ds))] at hframe

/-- Settles O51: with fewer than three bytes held the `One` after the last violates the framing. -/
theorem shortFrameIsFramingViolation : Obligations.ShortFrameIsFramingViolation := by
  intro s p bs hready hreset henough hshort
  have hbs : bs ≠ [] := by rintro rfl; simp at hshort
  have hceiling := (ceiling_of_cfgOk hready.1).1
  obtain ⟨r, hheld, hstop, hrun⟩ := runOps_preamble_separatedBytes hbs hready hreset henough (by omega)
  have hend := earlyOneViolatesFraming (s.quiet (p + 9 * bs.length) r) .b1 hready rfl hstop
    (by rw [quiet_regs, hheld.nbytes]; omega)
  rw [quiet_after_reset hreset] at hend
  rw [frame_eq p hbs, runOps_append_of_next hrun, runOps_singleton, hend]

/-- A frame of more than `m` bytes, cut after the separator that follows byte number `m`. -/
theorem frame_take {m : Nat} (p : Nat) (hm : 0 < m) (hlong : m < bs.length) :
    (frame p bs).take (p + 1 + 9 * m) = ones p ++ .b0 :: separatedBytes (bs.take m) ++ [.b0] := by
  have htake : (bs.take m).length = m := List.length_take_of_le hlong.le
  have hfirst : bs.take m ≠ [] := List.ne_nil_of_length_pos (by omega)
  have hmore : bs.drop m ≠ [] := List.ne_nil_of_length_pos (by rw [List.length_drop]; omega)
  have hlength := separatedBytes_length hfirst
  have hframe : frame p bs =
      (ones p ++ .b0 :: separatedBytes (bs.take m) ++ [.b0]) ++ frameBytes (bs.drop m) := by
    conv_lhs => rw [← List.take_append_drop m bs, frame, frameBytes_append hfirst hmore]
    simp
  rw [hframe]
  refine List.take_left' ?_
  simp only [List.length_append, List.length_cons, List.length_nil, ones, List.length_replicate]
  omega

/-- Settles O52: with `maxBytes` bytes held the `Zero` after the last aborts. -/
theorem overlongFrameIsCutAtCeiling : Obligations.OverlongFrameIsCutAtCeiling := by
  intro s p bs hready hreset henough hlong
  have hceiling := (ceiling_of_cfgOk hready.1).1
  have htake : (bs.take s.cfg.maxBytes).length = s.cfg.maxBytes := List.length_take_of_le hlong.le
  obtain ⟨r, hheld, hstop, hrun⟩ := runOps_preamble_separatedBytes (bs := bs.take s.cfg.maxBytes)
    (List.ne_nil_of_length_pos (by omega)) hready hreset henough htake.le
  have hcut := (zeroSeparatorAtCeilingAborts (s.quiet (p + 9 * s.cfg.maxBytes) r) .b0 hready hstop
    (hheld.nbytes.trans htake)).1 rfl
  rw [quiet_after_reset hreset] at hcut
  rw [htake] at hrun
  rw [frame_take p (by omega) hlong, runOps_append_of_next hrun, runOps_singleton, hcut]

/-- A change of one byte shows in the exclusive or. -/
theorem xorBytes_set {j : Nat} (hj : j < bs.length) (x : Byte) :
    xorBytes (bs.set j (bs.getD j 0#8 ^^^ x)) = xorBytes bs ^^^ x := by
  induction bs generalizing j with
  | nil => cases hj
  | cons b bs ih =>
    cases j with
    | zero =>
      simp only [List.set_cons_zero, List.getD_cons_zero, xorBytes]
      rw [BitVec.xor_assoc, BitVec.xor_comm x, ← BitVec.xor_assoc]
    | succ j =>
      simp only [List.set_cons_succ, List.getD_cons_succ, xorBytes]
      rw [ih (Nat.lt_of_succ_lt_succ hj), BitVec.xor_assoc]

theorem one_shiftLeft_ne_zero : ∀ k < 8, 1#8 <<< k ≠ 0#8 := by decide

/-- Settles O53: the exclusive or of the bytes received is the flipped bit, which is not 0. -/
theorem anySingleByteBitFlipIsReported : Obligations.AnySingleByteBitFlipIsReported := by
  intro s p j k bs hready hreset henough hmin hroom hvalid hj hk bad
  have hlength : bad.length = bs.length := List.length_set
  have hxor : xorBytes bad ≠ 0#8 := by
    rw [xorBytes_set hj, hvalid, BitVec.zero_xor]
    exact one_shiftLeft_ne_zero k hk
  have hframe := frameVerdictIsExclusiveOr s p bad hready hreset henough (by omega) (by omega)
  rwa [hlength, if_neg hxor] at hframe

end Sys2Proof.Machine
end
